-- ==== Sys2Proof/Word.lean ====
section
/-! DEFINITION. The word types of the CORE: what 10_state.md and 30_encoding.md (R8, R61) treat as bits. -/

namespace Sys2Proof

/-- A memory byte, a general register, a timer, an immediate `KK`: 8 bits (R10, R17, R20, R61). -/
abbrev Byte := BitVec 8

/-- An opcode, `pc`, `I`, a stack entry: 16 bits (R12, R13, R14, R60). -/
abbrev Word := BitVec 16

/-- A 4-bit opcode field: the register indices `X` and `Y` and the count `N` (R61). Every value of `X` and
`Y` names a register (R10), so an index can never be out of range. -/
abbrev Nibble := BitVec 4

/-- The 12-bit address field `NNN` (R61). -/
abbrev Addr12 := BitVec 12

end Sys2Proof
end

