-- ==== Sys2Proof/Config.lean ====
section
/-! DEFINITION. What an implementation fixes (R6, R7) and the free inputs of a step (R21, R24). -/

namespace Sys2Proof

/-- Parameter `DECODE_FAULT_POLICY` (R7, R208): what the step does after an unrecognized word. -/
inductive DecodeFaultPolicy where
  /-- `pc <- pc + 2`, the fault is reported, the machine goes on -/
  | skip
  /-- nothing changes and every later tick reports the same fault -/
  | halt
  deriving DecidableEq, Repr

/-- The parameters of R7 that the running machine depends on. `PC_WIDTH` and `DRAW_EDGE_POLICY` have one legal
value each (16, `clip`) and are built into the model; `FONT` and `PROGRAM` only shape the memory at reset
(Machine/HostPort.lean); `rnd` and `keys` are inputs. -/
structure Params where
  /-- `STACK_DEPTH`: a positive integer, or `none` for `unbounded` (R14) -/
  stackDepth : Option Nat
  decodeFaultPolicy : DecodeFaultPolicy
  deriving DecidableEq, Repr

/-- The defaults of R7: `STACK_DEPTH = 16`, `DECODE_FAULT_POLICY = skip`. -/
def Config.defaultParams : Params := { stackDepth := some 16, decodeFaultPolicy := .skip }

/-- Bytes of memory, addresses 0x000 to 0xFFF (R6, R20). -/
def Config.memorySize : Nat := 4096

/-- The program base and the entry point (R6, R241, R243). -/
def Config.programBase : Nat := 0x200

/-- The longest program image: 4096 − 512 bytes (R241). -/
def Config.programMax : Nat := 3584

/-- The font table's length: 16 glyphs of 5 bytes, at address 0x000 (R6, R27). -/
def Config.fontSize : Nat := 80

/-- FREE VALUE (R21, decision D16 of the spec): the key flags the host presents at the `n`-th step, bit `k` for
key `k`. No body: nothing about it can be evaluated or proved. -/
opaque Config.keysAt : Nat → BitVec 16

/-- FREE VALUE (R24, decision D15 of the spec): the random byte the host presents at the `n`-th step. -/
opaque Config.rndAt : Nat → Byte

end Sys2Proof
end

