-- ==== Sys2Proof/Syntax.lean ====
section
/-! DEFINITION. The instruction values of the decoder: one constructor per row of spec/opcode_table.json
(R66, R68), in the table's order, each carrying exactly the operands its format names (R62, R65). -/

namespace Sys2Proof

/-- The 34 instruction types. The operand widths are the field widths of R61, so every term is an instruction
the encoding admits. -/
inductive Instr where
  /-- `0?E0` (R160) -/
  | clearDisplay
  /-- `0?EE` Return (R120) -/
  | ret
  /-- `1NNN` (R121) -/
  | jump (nnn : Addr12)
  /-- `2NNN` (R122) -/
  | call (nnn : Addr12)
  /-- `3XKK` (R124) -/
  | skipEqConst (x : Nibble) (kk : Byte)
  /-- `4XKK` (R125) -/
  | skipNeConst (x : Nibble) (kk : Byte)
  /-- `5XY?` (R126) -/
  | skipEqReg (x y : Nibble)
  /-- `6XKK` (R140) -/
  | loadConst (x : Nibble) (kk : Byte)
  /-- `7XKK` (R141) -/
  | addConst (x : Nibble) (kk : Byte)
  /-- `8XY0` (R142) -/
  | assign (x y : Nibble)
  /-- `8XY1` (R143) -/
  | or (x y : Nibble)
  /-- `8XY2` (R144) -/
  | and (x y : Nibble)
  /-- `8XY3` (R145) -/
  | xor (x y : Nibble)
  /-- `8XY4` (R150) -/
  | add (x y : Nibble)
  /-- `8XY5` (R151) -/
  | subtract (x y : Nibble)
  /-- `8XY6` (R152) -/
  | shiftRight (x y : Nibble)
  /-- `8XY7` (R153) -/
  | reduce (x y : Nibble)
  /-- `8XYE` (R154) -/
  | shiftLeft (x y : Nibble)
  /-- `9XY?` (R127) -/
  | skipNeReg (x y : Nibble)
  /-- `ANNN` (R180) -/
  | setMemoryAddress (nnn : Addr12)
  /-- `BNNN` (R123) -/
  | jumpToV0Address (nnn : Addr12)
  /-- `CXKK` (R155) -/
  | bitwiseRandom (x : Nibble) (kk : Byte)
  /-- `DXYN` (R161) -/
  | drawSprite (x y n : Nibble)
  /-- `EX9E` (R170) -/
  | skipIfPressed (x : Nibble)
  /-- `EXA1` (R171) -/
  | skipIfNotPressed (x : Nibble)
  /-- `FX07` (R173) -/
  | loadDelay (x : Nibble)
  /-- `FX0A` (R172) -/
  | waitForPress (x : Nibble)
  /-- `FX15` (R174) -/
  | setDelay (x : Nibble)
  /-- `FX18` (R175) -/
  | setSound (x : Nibble)
  /-- `FX1E` (R181) -/
  | addOffset (x : Nibble)
  /-- `FX29` (R182) -/
  | setMemoryForFont (x : Nibble)
  /-- `FX33` (R183) -/
  | setBCD (x : Nibble)
  /-- `FX55` (R184) -/
  | dumpReg (x : Nibble)
  /-- `FX65` (R185) -/
  | loadReg (x : Nibble)
  deriving DecidableEq, Repr

end Sys2Proof
end

