-- ==== Sys2Proof/WellFormed.lean ====
section
/-! DEFINITION. What makes a configuration, a reset image and an opcode word well-formed. An instruction value
needs no check of its own: the operand types are the encoding's fields (R61), so no ill-formed `Instr` exists. -/

namespace Sys2Proof

/-- R7: `STACK_DEPTH` is a positive integer or `unbounded`. -/
abbrev Params.wf (p : Params) : Prop := p.stackDepth ≠ some 0

/-- R241: an image longer than 3584 bytes does not fit, and reset with it is refused. -/
abbrev programWf (program : List Byte) : Prop := program.length ≤ Config.programMax

/-- R7, R27: `FONT` is 80 bytes. -/
abbrev fontWf (font : List Byte) : Prop := font.length = Config.fontSize

/-- R73, R75: a word is canonical when the nibble its instruction ignores is 0: `n1` for `n0 = 0`, `n3` for
`n0` 5 and 9. -/
def canonicalWord (w : Word) : Bool :=
  match w.extractLsb' 12 4 with
  | 0x0 => w.extractLsb' 8 4 == 0
  | 0x5 => w.extractLsb' 0 4 == 0
  | 0x9 => w.extractLsb' 0 4 == 0
  | _ => true

end Sys2Proof
end

