-- ==== Sys2Proof/Decode.lean ====
section
/-! DEFINITION. The decoder block (30_encoding.md): a total function of the 16 bits of the word, its ports, the
decoder over bytes, and AFTER them the encoder written from the same table. -/

namespace Sys2Proof

/-! ## Fields (R61) -/

/-- `n0 = w[15:12]` -/
def fieldN0 (w : Word) : Nibble := w.extractLsb' 12 4
/-- `X = w[11:8]` -/
def fieldX (w : Word) : Nibble := w.extractLsb' 8 4
/-- `Y = w[7:4]` -/
def fieldY (w : Word) : Nibble := w.extractLsb' 4 4
/-- `N = w[3:0]` -/
def fieldN (w : Word) : Nibble := w.extractLsb' 0 4
/-- `KK = w[7:0]` -/
def fieldKK (w : Word) : Byte := w.extractLsb' 0 8
/-- `NNN = w[11:0]` -/
def fieldNNN (w : Word) : Addr12 := w.extractLsb' 0 12

/-! ## The dispatch (R67) -/

/-- Secondary dispatch for `n0 = 0`, on the low byte; `n1` is not examined (R72, R73). -/
def decodeGroup0 (w : Word) : Option Instr :=
  match fieldKK w with
  | 0xE0 => some .clearDisplay
  | 0xEE => some .ret
  | _ => none

/-- Secondary dispatch for `n0 = 8`, on `n3` (R69). -/
def decodeGroup8 (w : Word) : Option Instr :=
  match fieldN w with
  | 0x0 => some (.assign (fieldX w) (fieldY w))
  | 0x1 => some (.or (fieldX w) (fieldY w))
  | 0x2 => some (.and (fieldX w) (fieldY w))
  | 0x3 => some (.xor (fieldX w) (fieldY w))
  | 0x4 => some (.add (fieldX w) (fieldY w))
  | 0x5 => some (.subtract (fieldX w) (fieldY w))
  | 0x6 => some (.shiftRight (fieldX w) (fieldY w))
  | 0x7 => some (.reduce (fieldX w) (fieldY w))
  | 0xE => some (.shiftLeft (fieldX w) (fieldY w))
  | _ => none

/-- Secondary dispatch for `n0 = E`, on the whole low byte (R70). -/
def decodeGroupE (w : Word) : Option Instr :=
  match fieldKK w with
  | 0x9E => some (.skipIfPressed (fieldX w))
  | 0xA1 => some (.skipIfNotPressed (fieldX w))
  | _ => none

/-- Secondary dispatch for `n0 = F`, on the whole low byte (R71). -/
def decodeGroupF (w : Word) : Option Instr :=
  match fieldKK w with
  | 0x07 => some (.loadDelay (fieldX w))
  | 0x0A => some (.waitForPress (fieldX w))
  | 0x15 => some (.setDelay (fieldX w))
  | 0x18 => some (.setSound (fieldX w))
  | 0x1E => some (.addOffset (fieldX w))
  | 0x29 => some (.setMemoryForFont (fieldX w))
  | 0x33 => some (.setBCD (fieldX w))
  | 0x55 => some (.dumpReg (fieldX w))
  | 0x65 => some (.loadReg (fieldX w))
  | _ => none

/-- R64, R67: `decode(word) -> Option<Instruction>`, total, a function of the word alone; `none` is
"unrecognized" (R74). For `n0` 5 and 9 the nibble `n3` is not examined (R73). -/
def decode (w : Word) : Option Instr :=
  match fieldN0 w with
  | 0x0 => decodeGroup0 w
  | 0x1 => some (.jump (fieldNNN w))
  | 0x2 => some (.call (fieldNNN w))
  | 0x3 => some (.skipEqConst (fieldX w) (fieldKK w))
  | 0x4 => some (.skipNeConst (fieldX w) (fieldKK w))
  | 0x5 => some (.skipEqReg (fieldX w) (fieldY w))
  | 0x6 => some (.loadConst (fieldX w) (fieldKK w))
  | 0x7 => some (.addConst (fieldX w) (fieldKK w))
  | 0x8 => decodeGroup8 w
  | 0x9 => some (.skipNeReg (fieldX w) (fieldY w))
  | 0xA => some (.setMemoryAddress (fieldNNN w))
  | 0xB => some (.jumpToV0Address (fieldNNN w))
  | 0xC => some (.bitwiseRandom (fieldX w) (fieldKK w))
  | 0xD => some (.drawSprite (fieldX w) (fieldY w) (fieldN w))
  | 0xE => decodeGroupE w
  | _ => decodeGroupF w

/-! ## The decoder's ports (R65, R66, R79) -/

/-- R66: the code of an instruction's kind, in the order of the dispatch table. -/
def kindCode : Instr → BitVec 6
  | .clearDisplay => 0
  | .ret => 1
  | .jump _ => 2
  | .call _ => 3
  | .skipEqConst _ _ => 4
  | .skipNeConst _ _ => 5
  | .skipEqReg _ _ => 6
  | .loadConst _ _ => 7
  | .addConst _ _ => 8
  | .assign _ _ => 9
  | .or _ _ => 10
  | .and _ _ => 11
  | .xor _ _ => 12
  | .add _ _ => 13
  | .subtract _ _ => 14
  | .shiftRight _ _ => 15
  | .reduce _ _ => 16
  | .shiftLeft _ _ => 17
  | .skipNeReg _ _ => 18
  | .setMemoryAddress _ => 19
  | .jumpToV0Address _ => 20
  | .bitwiseRandom _ _ => 21
  | .drawSprite _ _ _ => 22
  | .skipIfPressed _ => 23
  | .skipIfNotPressed _ => 24
  | .loadDelay _ => 25
  | .waitForPress _ => 26
  | .setDelay _ => 27
  | .setSound _ => 28
  | .addOffset _ => 29
  | .setMemoryForFont _ => 30
  | .setBCD _ => 31
  | .dumpReg _ => 32
  | .loadReg _ => 33

/-- The output ports of the decoder block (R65). -/
structure DecoderPorts where
  valid : Bool
  kind : BitVec 6
  x : Nibble
  y : Nibble
  n : Nibble
  kk : Byte
  nnn : Addr12
  deriving DecidableEq, Repr

/-- The kind output: 63 for an unrecognized word (R65, R66). -/
def kindPort (w : Word) : BitVec 6 :=
  match decode w with
  | some i => kindCode i
  | none => 63

/-- R65, R79: the operand ports carry the word's bits whatever the kind. -/
def decoderPorts (w : Word) : DecoderPorts :=
  { valid := (decode w).isSome
    kind := kindPort w
    x := fieldX w
    y := fieldY w
    n := fieldN w
    kk := fieldKK w
    nnn := fieldNNN w }

/-! ## Bytes -/

/-- R41: the opcode's first byte supplies `w[15:8]`, the second `w[7:0]`. -/
def wordOfBytes (hi lo : Byte) : Word := BitVec.ofNat 16 (hi.toNat * 256 + lo.toNat)

/-- The first byte of a word in memory (R41). -/
def hiByte (w : Word) : Byte := w.extractLsb' 8 8

/-- The second byte of a word in memory (R41). -/
def loByte (w : Word) : Byte := w.extractLsb' 0 8

/-- Why a byte sequence does not begin with an instruction. -/
inductive DecodeReject where
  /-- fewer than the two bytes every instruction has (R60) -/
  | truncated
  /-- the word matches no row of the opcode map (R74) -/
  | unrecognized (w : Word)
  deriving DecidableEq, Repr

/-- The decoder over bytes: the instruction at the front of the sequence and the bytes after it, or a rejection
by name. Every instruction is two bytes long (R60). -/
def decodeBytes : List Byte → Except DecodeReject (Instr × List Byte)
  | hi :: lo :: rest =>
    match decode (wordOfBytes hi lo) with
    | some i => .ok (i, rest)
    | none => .error (.unrecognized (wordOfBytes hi lo))
  | _ => .error .truncated

/-- An opcode-table word as the hardware stores it: the table's bit 15 is the top bit of the first byte in
memory (R8, R41). Bits at and above `nbits` are 0. -/
def tableWord (nbits w : Nat) : Word := BitVec.ofNat 16 (w % 2 ^ nbits)

/-- The instruction the decoder reads from an opcode-table word. -/
def decodeTableWord (nbits w : Nat) : Option Instr :=
  match decodeBytes [hiByte (tableWord nbits w), loByte (tableWord nbits w)] with
  | .ok (i, _) => some i
  | .error _ => none

/-! ## The encoder (R62, R68): canonical words, the ignored nibbles 0 (R73) -/

/-- Format `A`: `n0 NNN`. -/
def wordA (n0 : Nibble) (nnn : Addr12) : Word := BitVec.ofNat 16 (n0.toNat * 4096 + nnn.toNat)

/-- Formats `XK`, `X` and `Z`: `n0 X KK`. -/
def wordXK (n0 x : Nibble) (kk : Byte) : Word :=
  BitVec.ofNat 16 (n0.toNat * 4096 + x.toNat * 256 + kk.toNat)

/-- Formats `XY` and `XYN`: `n0 X Y n3`. -/
def wordXYN (n0 x y n3 : Nibble) : Word :=
  BitVec.ofNat 16 (n0.toNat * 4096 + x.toNat * 256 + y.toNat * 16 + n3.toNat)

/-- R68, R75: the canonical word of an instruction. -/
def encode : Instr → Word
  | .clearDisplay => wordXK 0x0 0x0 0xE0
  | .ret => wordXK 0x0 0x0 0xEE
  | .jump nnn => wordA 0x1 nnn
  | .call nnn => wordA 0x2 nnn
  | .skipEqConst x kk => wordXK 0x3 x kk
  | .skipNeConst x kk => wordXK 0x4 x kk
  | .skipEqReg x y => wordXYN 0x5 x y 0x0
  | .loadConst x kk => wordXK 0x6 x kk
  | .addConst x kk => wordXK 0x7 x kk
  | .assign x y => wordXYN 0x8 x y 0x0
  | .or x y => wordXYN 0x8 x y 0x1
  | .and x y => wordXYN 0x8 x y 0x2
  | .xor x y => wordXYN 0x8 x y 0x3
  | .add x y => wordXYN 0x8 x y 0x4
  | .subtract x y => wordXYN 0x8 x y 0x5
  | .shiftRight x y => wordXYN 0x8 x y 0x6
  | .reduce x y => wordXYN 0x8 x y 0x7
  | .shiftLeft x y => wordXYN 0x8 x y 0xE
  | .skipNeReg x y => wordXYN 0x9 x y 0x0
  | .setMemoryAddress nnn => wordA 0xA nnn
  | .jumpToV0Address nnn => wordA 0xB nnn
  | .bitwiseRandom x kk => wordXK 0xC x kk
  | .drawSprite x y n => wordXYN 0xD x y n
  | .skipIfPressed x => wordXK 0xE x 0x9E
  | .skipIfNotPressed x => wordXK 0xE x 0xA1
  | .loadDelay x => wordXK 0xF x 0x07
  | .waitForPress x => wordXK 0xF x 0x0A
  | .setDelay x => wordXK 0xF x 0x15
  | .setSound x => wordXK 0xF x 0x18
  | .addOffset x => wordXK 0xF x 0x1E
  | .setMemoryForFont x => wordXK 0xF x 0x29
  | .setBCD x => wordXK 0xF x 0x33
  | .dumpReg x => wordXK 0xF x 0x55
  | .loadReg x => wordXK 0xF x 0x65

/-- The two bytes of an instruction, in memory order (R41, R60). -/
def encodeBytes (i : Instr) : List Byte := [hiByte (encode i), loByte (encode i)]

/-! ## The opcode map as rows (R68) -/

/-- One row of the opcode map: the word is the row's instruction exactly when `w &&& mask = pattern`. -/
structure Row where
  pattern : Word
  mask : Word
  deriving DecidableEq, Repr

/-- The 34 rows of R68, in the order of the kind codes of R66. -/
def opcodeRows : List Row :=
  [⟨0x00E0, 0xF0FF⟩, ⟨0x00EE, 0xF0FF⟩, ⟨0x1000, 0xF000⟩, ⟨0x2000, 0xF000⟩, ⟨0x3000, 0xF000⟩,
   ⟨0x4000, 0xF000⟩, ⟨0x5000, 0xF000⟩, ⟨0x6000, 0xF000⟩, ⟨0x7000, 0xF000⟩]
  ++ [⟨0x8000, 0xF00F⟩, ⟨0x8001, 0xF00F⟩, ⟨0x8002, 0xF00F⟩, ⟨0x8003, 0xF00F⟩, ⟨0x8004, 0xF00F⟩,
   ⟨0x8005, 0xF00F⟩, ⟨0x8006, 0xF00F⟩, ⟨0x8007, 0xF00F⟩, ⟨0x800E, 0xF00F⟩]
  ++ [⟨0x9000, 0xF000⟩, ⟨0xA000, 0xF000⟩, ⟨0xB000, 0xF000⟩, ⟨0xC000, 0xF000⟩, ⟨0xD000, 0xF000⟩,
   ⟨0xE09E, 0xF0FF⟩, ⟨0xE0A1, 0xF0FF⟩]
  ++ [⟨0xF007, 0xF0FF⟩, ⟨0xF00A, 0xF0FF⟩, ⟨0xF015, 0xF0FF⟩, ⟨0xF018, 0xF0FF⟩, ⟨0xF01E, 0xF0FF⟩,
   ⟨0xF029, 0xF0FF⟩, ⟨0xF033, 0xF0FF⟩, ⟨0xF055, 0xF0FF⟩, ⟨0xF065, 0xF0FF⟩]

/-- R68: `w & mask = match`. -/
def Row.accepts (r : Row) (w : Word) : Bool := w &&& r.mask == r.pattern

end Sys2Proof
end

