-- ==== Sys2Proof/Machine/State.lean ====
section
/-! DEFINITION. The state of the interpreter core (10_state.md) as plain data, the fault reports (R200 to R204),
the refusals, and the state right after reset (R28). -/

namespace Sys2Proof.Machine

/-- The sub-causes of BoundsFault (R202). -/
inductive BoundsCause where
  /-- `pc > 0xFFE` at the start of a step -/
  | fetch
  /-- a data read above 0xFFF: DrawSprite, LoadReg -/
  | memRead
  /-- a data write above 0xFFF: SetBCD, DumpReg -/
  | memWrite
  /-- a key index above 15: SkipIfPressed, SkipIfNotPressed, WaitForPress -/
  | keyIndex
  /-- Call with the stack full -/
  | stackOverflow
  deriving DecidableEq, Repr

/-- The fault reports of the CORE (R200: the taxonomy is closed; IOFault is the host's, R203). A step that ends
in `Host.Outcome.fault` leaves the state as it was (R207, R208 `halt`), so a fault carries no state. -/
inductive Fault where
  /-- Raised by the decode phase of a step for a word that matches no row (R201); it ends the step as a fault
  under `DECODE_FAULT_POLICY = halt` and is reported in `State.faultOut` under `skip`, where the machine goes
  on (R208). Safe: it is the spec's own fault. -/
  | decodeFault (word : Word) (pc : Word)
  /-- Raised by the fetch and by the instructions of R220; `value` is R202's third column, `pc` the address of
  the instruction. Safe: it is the spec's own fault and nothing is committed (R207). -/
  | boundsFault (cause : BoundsCause) (value : Nat) (pc : Word)
  deriving DecidableEq, Repr

/-- What is refused by name. -/
inductive Refusal where
  /-- Raised by an arm of `exec` for an instruction that has no meaning yet. No arm does. Safe. -/
  | notModelled (mnemonic : String)
  /-- Raised by the reset port only: the image is longer than 3584 bytes (R241: reset is refused). Safe. -/
  | programTooLong (length : Nat)
  /-- Raised by the reset port only: `FONT` is not 80 bytes or `STACK_DEPTH` is 0, values R7 does not list as
  legal. Safe. -/
  | illegalParameter
  deriving DecidableEq, Repr

/-- `mem` (R20) as (address, byte) pairs in one canonical form: addresses rising, all below 4096, no entry
equal to what an unlisted address reads as (Machine/Ops.lean, `initialByte`). -/
abbrev Memory := List Host.Cell

/-- `fb` (R22): 32 rows, row 0 first, of 64 one-bit cells; the cell of column `c` is bit `c` of its row. -/
abbrev FrameBuffer := Vector (BitVec 64) 32

/-- The machine's state. The first nine fields are the spec's state (R25: there is no other); `keys` and `rnd`
are its step inputs; `cfg` holds the implementation parameters; the last three are the model's own record of
what has no place in an outcome. -/
structure State where
  /-- the general registers V0 to VF (R10) -/
  v : Vector Byte 16
  /-- the address register (R12) -/
  I : Word
  /-- the program counter (R13) -/
  pc : Word
  /-- the return addresses, top of the stack first; `sp` is the length (R14) -/
  stack : List Word
  /-- the delay timer (R17) -/
  delay : Byte
  /-- the sound timer (R18) -/
  sound : Byte
  /-- the 4096 bytes (R20) -/
  mem : Memory
  /-- the framebuffer (R22) -/
  fb : FrameBuffer
  /-- `STACK_DEPTH` and `DECODE_FAULT_POLICY` (R7); no step changes them -/
  cfg : Params
  /-- the input `keys` of the step about to be made: bit `k` is key `k` (R21) -/
  keys : BitVec 16
  /-- the input `rnd` of the step about to be made (R24) -/
  rnd : Byte
  /-- MODEL: how many steps have sampled the inputs; selects the next free inputs -/
  inputIx : Nat
  /-- MODEL: the `fault` output of the step that led here (R100, R204); `none` after a step without a fault -/
  faultOut : Option Fault
  /-- MODEL: a fault has been reported since reset (R208, R246) -/
  faultSeen : Bool
  deriving DecidableEq, Repr

/-- The machine right after reset (R28, R242, R243) with the default parameters and the empty program: `pc` at
0x200, the stack empty, memory at its reset contents (nothing listed), everything else 0. The inputs are free. -/
def State.reset : State :=
  { v := Vector.replicate 16 0
    I := 0
    pc := 0x200
    stack := []
    delay := 0
    sound := 0
    mem := []
    fb := Vector.replicate 32 0
    cfg := Config.defaultParams
    keys := Config.keysAt 0
    rnd := Config.rndAt 0
    inputIx := 0
    faultOut := none
    faultSeen := false }

end Sys2Proof.Machine
end

