-- ==== Sys2Proof/Machine/Ops.lean ====
section
/-! DEFINITION. The named operations over memory, registers, stack, framebuffer and timers, raising a fault, the
fetch and the end of a step. Each follows one numbered rule of the spec. -/

namespace Sys2Proof.Machine

/-! ## Memory (R20, R40, R48): a canonical list over the reset contents -/

/-- What an unlisted address reads as: the reset contents with the default font and the empty program (R28,
R48); the font at 0x000 to 0x04F, 0 everywhere else (decision D13 of the spec). -/
def initialByte (a : Nat) : Byte := defaultFont.getD a 0

/-- `mem[a]`: the listed byte, or the reset contents. -/
def Memory.read : Memory → Nat → Byte
  | [], a => initialByte a
  | (b, u) :: rest, a => if a = b then u else Memory.read rest a

/-- The list without its entry for `a`. -/
def Memory.erase : Memory → Nat → Memory
  | [], _ => []
  | (b, u) :: rest, a => if b = a then Memory.erase rest a else (b, u) :: Memory.erase rest a

/-- An entry put at its place in the rising order. -/
def Memory.insert : Memory → Nat → Byte → Memory
  | [], a, v => [(a, v)]
  | (b, u) :: rest, a, v => if a < b then (a, v) :: (b, u) :: rest else (b, u) :: Memory.insert rest a v

/-- `mem[a] <- v`, keeping the list canonical: a byte equal to the reset contents is not listed. -/
def Memory.write (m : Memory) (a : Nat) (v : Byte) : Memory :=
  if v = initialByte a then m.erase a else (m.erase a).insert a v

/-- `mem[a], mem[a+1], ... <- bytes`, without a bounds check: the loading of the font and the program image. -/
def Memory.writeAll (m : Memory) (a : Nat) : List Byte → Memory
  | [] => m
  | b :: rest => Memory.writeAll (Memory.write m a b) (a + 1) rest

/-- The canonical form: addresses strictly rising, all within the 4096 bytes, no entry equal to what an unlisted
address reads as. -/
abbrev Memory.wf (m : Memory) : Prop :=
  m.Pairwise (fun c d => c.1 < d.1) ∧ ∀ c ∈ m, c.1 < Config.memorySize ∧ c.2 ≠ initialByte c.1

/-! ## Registers (R10, R12, R13), stack, timers: one update each -/

/-- `V[x]` -/
def State.readV (s : State) (x : Nibble) : Byte := s.v[x.toNat]'(x.isLt)

/-- `V[x] <- b` -/
def State.writeV (s : State) (x : Nibble) (b : Byte) : State := { s with v := s.v.set x.toNat b x.isLt }

/-- `V[i], V[i+1], ... <- bytes`, lowest index first (R185); the index is a 4-bit number. -/
def State.writeVs (s : State) (i : Nat) : List Byte → State
  | [] => s
  | b :: rest => State.writeVs (s.writeV (BitVec.ofNat 4 i) b) (i + 1) rest

/-- `V[0]` to `V[n-1]` in order (R184). -/
def State.firstVs (s : State) (n : Nat) : List Byte := s.v.toList.take n

/-- `I <- a` -/
def State.setI (s : State) (a : Word) : State := { s with I := a }

/-- `stack` replaced -/
def State.setStack (s : State) (st : List Word) : State := { s with stack := st }

/-- `delay <- b` -/
def State.setDelay (s : State) (b : Byte) : State := { s with delay := b }

/-- `sound <- b` -/
def State.setSound (s : State) (b : Byte) : State := { s with sound := b }

/-- `mem` replaced -/
def State.setMem (s : State) (m : Memory) : State := { s with mem := m }

/-- `fb` replaced -/
def State.setFb (s : State) (f : FrameBuffer) : State := { s with fb := f }

/-- One timer's tick: minus 1 when nonzero, floored at 0 (R19, R104). -/
def tickDown (b : Byte) : Byte := if b = 0 then 0 else b - 1

/-- The timer tick of a step that executes a decoded instruction (R104): the state the instruction is applied to. -/
def State.tickTimers (s : State) : State := { s with delay := tickDown s.delay, sound := tickDown s.sound }

/-- The program-counter update of a step that commits (R106 to R108); the step's `fault` output is `none`. -/
def State.retire (s : State) (target : Word) : State := { s with pc := target, faultOut := none }

/-! ## Raising a fault and committing (R108, R204, R207, R208) -/

/-- The report of a BoundsFault of the instruction at `pc` (R202, R204). Trap entry: there is none inside the
machine, no vector, no saved register (R209), and so no return from one (R210); the report is all there is. -/
def State.bounds (s : State) (cause : BoundsCause) (value : Nat) : Fault := .boundsFault cause value s.pc

/-- R108: an apply phase that raised a BoundsFault commits nothing, one that did not commits all its writes. -/
def commit {α : Type} (r : Except Fault α) (k : α → State) : Host.Outcome State Fault Refusal :=
  match r with
  | .error f => .fault f
  | .ok a => .next (k a)

/-- R208: after an unrecognized word, `skip` adds 2 to `pc` (also when `pc` is odd), reports the fault and
changes nothing else, the timers included (R102); `halt` changes nothing at all. -/
def State.raiseDecode (s : State) (w : Word) : Host.Outcome State Fault Refusal :=
  match s.cfg.decodeFaultPolicy with
  | .skip => .next { s with pc := s.pc + 2, faultOut := some (.decodeFault w s.pc), faultSeen := true }
  | .halt => .fault (.decodeFault w s.pc)

/-! ## Memory access with the bounds check (R43, R44, R56) -/

/-- `MemRead(a, 1)`: the address is an exact natural number, never reduced (R43, R56). -/
def State.memRead (s : State) (a : Nat) : Except Fault Byte :=
  if a < Config.memorySize then .ok (s.mem.read a) else .error (s.bounds .memRead a)

/-- `MemWrite(a, 1, v)` (R44). -/
def State.memWrite (s : State) (a : Nat) (v : Byte) : Except Fault State :=
  if a < Config.memorySize then .ok (s.setMem (s.mem.write a v)) else .error (s.bounds .memWrite a)

/-- The `n` bytes from `base` up, in ascending order; the first address out of range faults (R46, R206). -/
def State.memReadBlock (s : State) (base : Nat) : Nat → Except Fault (List Byte)
  | 0 => .ok []
  | n + 1 =>
    match s.memRead base with
    | .error f => .error f
    | .ok b =>
      match State.memReadBlock s (base + 1) n with
      | .error f => .error f
      | .ok rest => .ok (b :: rest)

/-- The bytes written from `base` up, in ascending order; the first address out of range faults and the caller
then commits nothing (R44, R46, R206). -/
def State.memWriteBlock (s : State) (base : Nat) : List Byte → Except Fault State
  | [] => .ok s
  | b :: rest =>
    match s.memWrite base b with
    | .error f => .error f
    | .ok t => State.memWriteBlock t (base + 1) rest

/-! ## The stack (R15, R16) -/

/-- `push(r)`: the new stack, or StackOverflow when it holds `STACK_DEPTH` entries; never with `unbounded`. -/
def State.push (s : State) (r : Word) : Except Fault (List Word) :=
  match s.cfg.stackDepth with
  | none => .ok (r :: s.stack)
  | some d => if d ≤ s.stack.length then .error (s.bounds .stackOverflow r.toNat) else .ok (r :: s.stack)

/-- `pop()`: the top entry and the stack below it, or `none` on an empty stack (no fault). -/
def State.pop (s : State) : Option (Word × List Word) :=
  match s.stack with
  | [] => none
  | r :: rest => some (r, rest)

/-! ## The framebuffer (R22, R23) -/

/-- `fb[k]`: cell `k` is column `k % 64` of row `k / 64`; there is no cell at 2048 or above. -/
def FrameBuffer.cell (fb : FrameBuffer) (k : Nat) : Bool :=
  if h : k / 64 < 32 then fb[k / 64].getLsbD (k % 64) else false

/-- `fb[k] <- fb[k] ^ 1` -/
def FrameBuffer.flip (fb : FrameBuffer) (k : Nat) : FrameBuffer :=
  if h : k / 64 < 32 then fb.set (k / 64) (fb[k / 64] ^^^ BitVec.twoPow 64 (k % 64)) else fb

/-- Every cell 0 (R160). -/
def FrameBuffer.blank : FrameBuffer := Vector.replicate 32 0

/-! ## The fetch (R41, R101) and the end of a step -/

/-- `MemRead(pc, 2)`: two byte reads, each checked on its own, big-endian, whatever the parity of `pc` (R45). -/
def State.fetch (s : State) : Except Fault Word :=
  if 0xFFF < s.pc.toNat then .error (s.bounds .fetch s.pc.toNat)
  else if s.pc.toNat = 0xFFF then .error (s.bounds .fetch 0x1000)
  else .ok (wordOfBytes (s.mem.read s.pc.toNat) (s.mem.read (s.pc.toNat + 1)))

/-- The host presents fresh `keys` and `rnd` for the next step (R21, R24, R109): free values. -/
def State.nextInputs (s : State) : State :=
  { s with
    inputIx := s.inputIx + 1
    keys := Config.keysAt (s.inputIx + 1)
    rnd := Config.rndAt (s.inputIx + 1) }

/-- The end of a step that goes on: the inputs of the next step are presented. -/
def endStep (o : Host.Outcome State Fault Refusal) : Host.Outcome State Fault Refusal :=
  match o with
  | .next s => .next s.nextInputs
  | .fault f => .fault f
  | .refused r => .refused r

/-- A word stored where the fetch reads it, most-significant byte first (R41); nothing is stored outside the
4096 bytes. -/
def State.storeWord (s : State) (a : Nat) (w : Word) : State :=
  if a + 1 < Config.memorySize then s.setMem ((s.mem.write a (hiByte w)).write (a + 1) (loByte w)) else s

end Sys2Proof.Machine
end

