-- ==== Sys2Proof/Machine/Operands.lean ====
section
/-! DEFINITION. The operand forms (R62, R63): register contents, immediates, addresses, the key index, the
skip targets, and the pixels of a sprite. -/

namespace Sys2Proof.Machine

/-- `zext_16(NNN)`: the 12-bit address with the four high bits zero (R63). -/
def addrOf (nnn : Addr12) : Word := nnn.setWidth 16

/-- `zext_16(V[x])` (R9). -/
def State.wideV (s : State) (x : Nibble) : Word := (s.readV x).setWidth 16

/-- `pc + 2`, the normal update (R106). -/
def State.pcNext (s : State) : Word := s.pc + 2

/-- The target of a skip: `pc + 4` when the condition holds, else `pc + 2` (R107, R124). -/
def State.pcSkip (s : State) (cond : Bool) : Word := if cond then s.pc + 4 else s.pc + 2

/-- The key index in register `x`: the whole register, not masked to 4 bits; above 15 it raises
BoundsFault(KeyIndex) (R170). -/
def State.keyIndex (s : State) (x : Nibble) : Except Fault Nat :=
  if (s.readV x).toNat ≤ 15 then .ok (s.readV x).toNat else .error (s.bounds .keyIndex (s.readV x).toNat)

/-- `keys[k]` (R21). -/
def State.keyHeld (s : State) (k : Nat) : Bool := s.keys.getLsbD k

/-- DrawSprite's left column: a register value of 64 or more restarts at column 0 (R162 part 1). -/
def spriteLeft (b : Byte) : Nat := if 64 ≤ b.toNat then 0 else b.toNat

/-- The framebuffer cells one sprite row draws: bit 7 of the byte is column offset 0; clear bits, and pixels right
of column 63 or below row 31, are skipped (R161, R162). The sums are exact. -/
def spriteRowCells (sx py : Nat) (row : Byte) : List Nat :=
  (List.range 8).filterMap fun c =>
    if row.getLsbD (7 - c) && decide (sx + c ≤ 63) && decide (py ≤ 31) then some (py * 64 + (sx + c)) else none

/-- The cells a sprite draws, top row first (R161). -/
def spriteCells (sx sy : Nat) : List Byte → List Nat
  | [] => []
  | row :: rest => spriteRowCells sx sy row ++ spriteCells sx (sy + 1) rest

/-- The decimal digits of a byte: hundreds, tens, units (R183). -/
def bcdDigits (b : Byte) : List Byte :=
  [BitVec.ofNat 8 (b.toNat / 100), BitVec.ofNat 8 (b.toNat / 10 % 10), BitVec.ofNat 8 (b.toNat % 10)]

end Sys2Proof.Machine
end

