-- ==== Sys2Proof/Machine/Flags.lean ====
section
/-! DEFINITION. Every value VF takes as a flag (R11), and the order of the two writes (R110). -/

namespace Sys2Proof.Machine

/-- VF, register 15 (R11). -/
def vf : Nibble := 15

/-- A flag as the whole register: 0x00 or 0x01 (R11). -/
def flagByte (b : Bool) : Byte := if b then 1 else 0

/-- Add: the 9-bit sum exceeded 255 (R150). -/
def carryOut (a b : Byte) : Bool := decide (255 < a.toNat + b.toNat)

/-- Subtract (`a > b`) and, with the operands exchanged, Reduce: the strict comparison (R151, R153). -/
def exceeds (a b : Byte) : Bool := decide (b.toNat < a.toNat)

/-- ShiftRight: bit 0 of the operand (R152). -/
def bitOutRight (b : Byte) : Bool := b.getLsbD 0

/-- ShiftLeft: bit 7 of the operand (R154). -/
def bitOutLeft (b : Byte) : Bool := b.getLsbD 7

/-- The destination first and VF last, so that with `x = F` the flag stays (R110, decision D8 of the spec). -/
def State.writeWithFlag (s : State) (x : Nibble) (r : Byte) (flag : Bool) : State :=
  (s.writeV x r).writeV vf (flagByte flag)

/-- DrawSprite's loop over the drawn cells: XOR each, and remember whether any held 1 before (R161, R163). -/
def drawCells (fb : FrameBuffer) (hit : Bool) : List Nat → FrameBuffer × Bool
  | [] => (fb, hit)
  | k :: rest => drawCells (fb.flip k) (hit || fb.cell k) rest

end Sys2Proof.Machine
end

