-- ==== Sys2Proof/Machine/ControlFlow.lean ====
section
/-! DEFINITION. Control-flow instructions (41_control_flow.md, R120 to R128). -/

namespace Sys2Proof.Machine

/-- R120: the popped address plus 2; on an empty stack a no-operation that moves on. -/
def execRet (s : State) : Host.Outcome State Fault Refusal :=
  match s.pop with
  | none => .next (s.tickTimers.retire s.pcNext)
  | some (r, rest) => .next ((s.tickTimers.setStack rest).retire (r + 2))

/-- R121 -/
def execJump (nnn : Addr12) (s : State) : Host.Outcome State Fault Refusal :=
  .next (s.tickTimers.retire (addrOf nnn))

/-- R122: the address of this Call is pushed. -/
def execCall (nnn : Addr12) (s : State) : Host.Outcome State Fault Refusal :=
  commit (s.push s.pc) fun st => (s.tickTimers.setStack st).retire (addrOf nnn)

/-- R123: `NNN + V[0]`, exact (at most 0x10FE), never reduced modulo 4096. -/
def execJumpToV0Address (nnn : Addr12) (s : State) : Host.Outcome State Fault Refusal :=
  .next (s.tickTimers.retire (addrOf nnn + s.wideV 0))

/-- R124 -/
def execSkipEqConst (x : Nibble) (kk : Byte) (s : State) : Host.Outcome State Fault Refusal :=
  .next (s.tickTimers.retire (s.pcSkip (s.readV x == kk)))

/-- R125 -/
def execSkipNeConst (x : Nibble) (kk : Byte) (s : State) : Host.Outcome State Fault Refusal :=
  .next (s.tickTimers.retire (s.pcSkip (s.readV x != kk)))

/-- R126 -/
def execSkipEqReg (x y : Nibble) (s : State) : Host.Outcome State Fault Refusal :=
  .next (s.tickTimers.retire (s.pcSkip (s.readV x == s.readV y)))

/-- R127 -/
def execSkipNeReg (x y : Nibble) (s : State) : Host.Outcome State Fault Refusal :=
  .next (s.tickTimers.retire (s.pcSkip (s.readV x != s.readV y)))

end Sys2Proof.Machine
end

