-- ==== Sys2Proof/Machine/Display.lean ====
section
/-! DEFINITION. Display instructions (43_display.md, R160 to R164). -/

namespace Sys2Proof.Machine

/-- R160 -/
def execClearDisplay (s : State) : Host.Outcome State Fault Refusal :=
  .next ((s.tickTimers.setFb FrameBuffer.blank).retire s.pcNext)

/-- What DrawSprite makes of the framebuffer and the collision flag, given the sprite's rows; the coordinates are
the register contents from before the instruction (R161 to R163). -/
def State.drawn (s : State) (x y : Nibble) (rows : List Byte) : FrameBuffer × Bool :=
  drawCells s.fb false (spriteCells (spriteLeft (s.readV x)) (s.readV y).toNat rows)

/-- R161 to R164: all `N` bytes are read before anything is drawn. -/
def execDrawSprite (x y n : Nibble) (s : State) : Host.Outcome State Fault Refusal :=
  commit (s.memReadBlock s.I.toNat n.toNat) fun rows =>
    ((s.tickTimers.setFb (s.drawn x y rows).1).writeV vf (flagByte (s.drawn x y rows).2)).retire s.pcNext

end Sys2Proof.Machine
end

