-- ==== Sys2Proof/Machine/KeysTimers.lean ====
section
/-! DEFINITION. Key and timer instructions (44_keys_timers.md, R170 to R175). -/

namespace Sys2Proof.Machine

/-- R170 -/
def execSkipIfPressed (x : Nibble) (s : State) : Host.Outcome State Fault Refusal :=
  commit (s.keyIndex x) fun k => s.tickTimers.retire (s.pcSkip (s.keyHeld k))

/-- R171 -/
def execSkipIfNotPressed (x : Nibble) (s : State) : Host.Outcome State Fault Refusal :=
  commit (s.keyIndex x) fun k => s.tickTimers.retire (s.pcSkip (!s.keyHeld k))

/-- R172: `pc` stands still while the key is not held; no register is written. -/
def execWaitForPress (x : Nibble) (s : State) : Host.Outcome State Fault Refusal :=
  commit (s.keyIndex x) fun k => s.tickTimers.retire (if s.keyHeld k then s.pcNext else s.pc)

/-- R173: the value after this step's tick. -/
def execLoadDelay (x : Nibble) (s : State) : Host.Outcome State Fault Refusal :=
  .next ((s.tickTimers.writeV x s.tickTimers.delay).retire s.pcNext)

/-- R174: overwrites the ticked value. -/
def execSetDelay (x : Nibble) (s : State) : Host.Outcome State Fault Refusal :=
  .next ((s.tickTimers.setDelay (s.readV x)).retire s.pcNext)

/-- R175: overwrites the ticked value. -/
def execSetSound (x : Nibble) (s : State) : Host.Outcome State Fault Refusal :=
  .next ((s.tickTimers.setSound (s.readV x)).retire s.pcNext)

end Sys2Proof.Machine
end

