-- ==== Sys2Proof/Machine/LoadAlu.lean ====
section
/-! DEFINITION. Load, arithmetic, logic, shift and random instructions (42_load_alu.md, R140 to R156). -/

namespace Sys2Proof.Machine

/-- R140 -/
def execLoadConst (x : Nibble) (kk : Byte) (s : State) : Host.Outcome State Fault Refusal :=
  .next ((s.tickTimers.writeV x kk).retire s.pcNext)

/-- R141: wrapping, no carry recorded. -/
def execAddConst (x : Nibble) (kk : Byte) (s : State) : Host.Outcome State Fault Refusal :=
  .next ((s.tickTimers.writeV x (s.readV x + kk)).retire s.pcNext)

/-- R142 -/
def execAssign (x y : Nibble) (s : State) : Host.Outcome State Fault Refusal :=
  .next ((s.tickTimers.writeV x (s.readV y)).retire s.pcNext)

/-- R143 -/
def execOr (x y : Nibble) (s : State) : Host.Outcome State Fault Refusal :=
  .next ((s.tickTimers.writeV x (s.readV x ||| s.readV y)).retire s.pcNext)

/-- R144 -/
def execAnd (x y : Nibble) (s : State) : Host.Outcome State Fault Refusal :=
  .next ((s.tickTimers.writeV x (s.readV x &&& s.readV y)).retire s.pcNext)

/-- R145 -/
def execXor (x y : Nibble) (s : State) : Host.Outcome State Fault Refusal :=
  .next ((s.tickTimers.writeV x (s.readV x ^^^ s.readV y)).retire s.pcNext)

/-- R150 -/
def execAdd (x y : Nibble) (s : State) : Host.Outcome State Fault Refusal :=
  .next ((s.tickTimers.writeWithFlag x (s.readV x + s.readV y) (carryOut (s.readV x) (s.readV y))).retire s.pcNext)

/-- R151 -/
def execSubtract (x y : Nibble) (s : State) : Host.Outcome State Fault Refusal :=
  .next ((s.tickTimers.writeWithFlag x (s.readV x - s.readV y) (exceeds (s.readV x) (s.readV y))).retire s.pcNext)

/-- R152: the operand is `V[y]`. -/
def execShiftRight (x y : Nibble) (s : State) : Host.Outcome State Fault Refusal :=
  .next ((s.tickTimers.writeWithFlag x (s.readV y >>> 1) (bitOutRight (s.readV y))).retire s.pcNext)

/-- R153 -/
def execReduce (x y : Nibble) (s : State) : Host.Outcome State Fault Refusal :=
  .next ((s.tickTimers.writeWithFlag x (s.readV y - s.readV x) (exceeds (s.readV y) (s.readV x))).retire s.pcNext)

/-- R154: the operand is `V[y]`. -/
def execShiftLeft (x y : Nibble) (s : State) : Host.Outcome State Fault Refusal :=
  .next ((s.tickTimers.writeWithFlag x (s.readV y <<< 1) (bitOutLeft (s.readV y))).retire s.pcNext)

/-- R155: the input byte of this step, masked. -/
def execBitwiseRandom (x : Nibble) (kk : Byte) (s : State) : Host.Outcome State Fault Refusal :=
  .next ((s.tickTimers.writeV x (s.rnd &&& kk)).retire s.pcNext)

end Sys2Proof.Machine
end

