-- ==== Sys2Proof/Machine/MemoryIndex.lean ====
section
/-! DEFINITION. Address-register and memory-block instructions (45_memory_index.md, R180 to R185). -/

namespace Sys2Proof.Machine

/-- R180 -/
def execSetMemoryAddress (nnn : Addr12) (s : State) : Host.Outcome State Fault Refusal :=
  .next ((s.tickTimers.setI (addrOf nnn)).retire s.pcNext)

/-- R181: modulo 65536, VF not written. -/
def execAddOffset (x : Nibble) (s : State) : Host.Outcome State Fault Refusal :=
  .next ((s.tickTimers.setI (s.I + s.wideV x)).retire s.pcNext)

/-- R182: the whole register times 5. -/
def execSetMemoryForFont (x : Nibble) (s : State) : Host.Outcome State Fault Refusal :=
  .next ((s.tickTimers.setI (s.wideV x * 5)).retire s.pcNext)

/-- R183: `I` is not modified. -/
def execSetBCD (x : Nibble) (s : State) : Host.Outcome State Fault Refusal :=
  commit (s.tickTimers.memWriteBlock s.I.toNat (bcdDigits (s.readV x))) fun t => t.retire s.pcNext

/-- `I + X + 1`, the advance of DumpReg and LoadReg (R184, R185). -/
def State.advancedI (s : State) (x : Nibble) : Word := s.I + x.setWidth 16 + 1

/-- R184 -/
def execDumpReg (x : Nibble) (s : State) : Host.Outcome State Fault Refusal :=
  commit (s.tickTimers.memWriteBlock s.I.toNat (s.firstVs (x.toNat + 1))) fun t =>
    (t.setI (s.advancedI x)).retire s.pcNext

/-- R185 -/
def execLoadReg (x : Nibble) (s : State) : Host.Outcome State Fault Refusal :=
  commit (s.memReadBlock s.I.toNat (x.toNat + 1)) fun bytes =>
    ((s.tickTimers.writeVs 0 bytes).setI (s.advancedI x)).retire s.pcNext

end Sys2Proof.Machine
end

