-- ==== Sys2Proof/Machine/Dispatch.lean ====
section
/-! DEFINITION. The dispatch: one arm per instruction, each one direct call of its meaning. `exec` is the document's
`execute`: timer tick, apply, program-counter update (R100). -/

namespace Sys2Proof.Machine

def exec (i : Instr) (s : State) : Host.Outcome State Fault Refusal :=
  match i with
  | .clearDisplay => Sys2Proof.Machine.execClearDisplay s
  | .ret => Sys2Proof.Machine.execRet s
  | .jump nnn => Sys2Proof.Machine.execJump nnn s
  | .call nnn => Sys2Proof.Machine.execCall nnn s
  | .skipEqConst x kk => Sys2Proof.Machine.execSkipEqConst x kk s
  | .skipNeConst x kk => Sys2Proof.Machine.execSkipNeConst x kk s
  | .skipEqReg x y => Sys2Proof.Machine.execSkipEqReg x y s
  | .loadConst x kk => Sys2Proof.Machine.execLoadConst x kk s
  | .addConst x kk => Sys2Proof.Machine.execAddConst x kk s
  | .assign x y => Sys2Proof.Machine.execAssign x y s
  | .or x y => Sys2Proof.Machine.execOr x y s
  | .and x y => Sys2Proof.Machine.execAnd x y s
  | .xor x y => Sys2Proof.Machine.execXor x y s
  | .add x y => Sys2Proof.Machine.execAdd x y s
  | .subtract x y => Sys2Proof.Machine.execSubtract x y s
  | .shiftRight x y => Sys2Proof.Machine.execShiftRight x y s
  | .reduce x y => Sys2Proof.Machine.execReduce x y s
  | .shiftLeft x y => Sys2Proof.Machine.execShiftLeft x y s
  | .skipNeReg x y => Sys2Proof.Machine.execSkipNeReg x y s
  | .setMemoryAddress nnn => Sys2Proof.Machine.execSetMemoryAddress nnn s
  | .jumpToV0Address nnn => Sys2Proof.Machine.execJumpToV0Address nnn s
  | .bitwiseRandom x kk => Sys2Proof.Machine.execBitwiseRandom x kk s
  | .drawSprite x y n => Sys2Proof.Machine.execDrawSprite x y n s
  | .skipIfPressed x => Sys2Proof.Machine.execSkipIfPressed x s
  | .skipIfNotPressed x => Sys2Proof.Machine.execSkipIfNotPressed x s
  | .loadDelay x => Sys2Proof.Machine.execLoadDelay x s
  | .waitForPress x => Sys2Proof.Machine.execWaitForPress x s
  | .setDelay x => Sys2Proof.Machine.execSetDelay x s
  | .setSound x => Sys2Proof.Machine.execSetSound x s
  | .addOffset x => Sys2Proof.Machine.execAddOffset x s
  | .setMemoryForFont x => Sys2Proof.Machine.execSetMemoryForFont x s
  | .setBCD x => Sys2Proof.Machine.execSetBCD x s
  | .dumpReg x => Sys2Proof.Machine.execDumpReg x s
  | .loadReg x => Sys2Proof.Machine.execLoadReg x s

end Sys2Proof.Machine
end

