-- ==== Sys2Proof/Machine/Step.lean ====
section
/-! DEFINITION. One step of the CORE (40_step_cycle.md, R100, R111): fetch, decode, execute, inputs of the next
step. -/

namespace Sys2Proof.Machine

/-- What a fetched word does: the decoded instruction is executed, an unrecognized word raises DecodeFault
(R102). -/
def runWord (w : Word) (s : State) : Host.Outcome State Fault Refusal :=
  match decode w with
  | some i => exec i s
  | none => s.raiseDecode w

/-- R111: one tick of the host. -/
def step (s : State) : Host.Outcome State Fault Refusal :=
  match s.fetch with
  | .error f => .fault f
  | .ok w => endStep (runWord w s)

/-- `s` with an opcode-table word stored at `pc`, where `step` fetches its next instruction. -/
def State.withFetchWord (s : State) (nbits w : Nat) : State := s.storeWord s.pc.toNat (tableWord nbits w)

end Sys2Proof.Machine
end

