-- ==== Sys2Proof/Machine/HostPort.lean ====
section
/-! DEFINITION. What the host does to the CORE and reads from it (R245): reset with its arguments, presenting
the inputs, the framebuffer read, the fault ports, and ticking on after a fault. -/

namespace Sys2Proof.Machine

/-- The arguments of reset (R7, R240, R241): the program image, the font and the parameters. -/
structure ResetArgs where
  program : List Byte
  font : List Byte
  cfg : Params
  deriving DecidableEq, Repr

/-- The arguments with everything at its default and the given image. -/
def ResetArgs.ofProgram (program : List Byte) : ResetArgs :=
  { program := program, font := defaultFont, cfg := Config.defaultParams }

/-- Memory after reset: the font at 0x000, the program at 0x200, 0 everywhere else (R28, R48, R241). -/
def ResetArgs.memory (a : ResetArgs) : Memory :=
  Memory.writeAll (Memory.writeAll [] 0 a.font) Config.programBase a.program

/-- R28 with the given arguments. -/
def ResetArgs.state (a : ResetArgs) : State := { State.reset with mem := a.memory, cfg := a.cfg }

/-- The reset input (R240, R241): from any state, at any time, to R28; an image that does not fit and an illegal
parameter are refused. The inputs presented afterwards are fresh. -/
def State.hostReset (s : State) (a : ResetArgs) : Host.Outcome State Fault Refusal :=
  if programWf a.program then
    if fontWf a.font ∧ a.cfg.wf then .next (State.nextInputs { a.state with inputIx := s.inputIx })
    else .refused .illegalParameter
  else .refused (.programTooLong a.program.length)

/-- The host presents `keys` and `rnd` for the next step (R21, R24, R245). -/
def State.present (s : State) (keys : BitVec 16) (rnd : Byte) : State := { s with keys := keys, rnd := rnd }

/-- The host's read of the framebuffer: the 2048 cells in row-major order (R22, R245). -/
def State.framebufferPort (s : State) : List Bool := (List.range 2048).map s.fb.cell

/-- The state after one tick, for a host that goes on ticking (R100, R207, R208): a step that ends in a fault
leaves the state as it was and only reports. -/
def State.tick (s : State) : State :=
  match step s with
  | .next t => t
  | .fault f => State.nextInputs { s with faultOut := some f, faultSeen := true }
  | .refused _ => s

/-! ## The fault ports (R204) -/

/-- `fault_class`: 0 none, 1 DecodeFault, 2 BoundsFault. -/
def faultClass : Option Fault → BitVec 2
  | none => 0
  | some (.decodeFault _ _) => 1
  | some (.boundsFault _ _ _) => 2

/-- The number of a sub-cause. -/
def causeCode : BoundsCause → BitVec 3
  | .fetch => 1
  | .memRead => 2
  | .memWrite => 3
  | .keyIndex => 4
  | .stackOverflow => 5

/-- `fault_sub`: the sub-cause of a BoundsFault, 0 otherwise. -/
def faultSub : Option Fault → BitVec 3
  | some (.boundsFault c _ _) => causeCode c
  | _ => 0

/-- `fault_value`: the word of a DecodeFault, the recorded value of a BoundsFault. DESIGN CHOICE: 0 without a fault. -/
def faultValue : Option Fault → Word
  | none => 0
  | some (.decodeFault w _) => w
  | some (.boundsFault _ v _) => BitVec.ofNat 16 v

/-- `fault_pc`: the `pc` at the start of the faulting step. DESIGN CHOICE: 0 without a fault. -/
def faultPc : Option Fault → Word
  | none => 0
  | some (.decodeFault _ pc) => pc
  | some (.boundsFault _ _ pc) => pc

end Sys2Proof.Machine
end

