-- ==== Sys2Proof/Safety.lean ====
section
/-! DEFINITION. The terms the claims use: the invariant, the end of a run, a safe step, what an instruction leaves
unchanged, and the declarative readings of the loops and tables of the spec. -/

namespace Sys2Proof.Machine

/-! ## The invariant -/

/-- R14: `0 <= sp <= STACK_DEPTH`. -/
abbrev State.stackFits (s : State) : Prop := ∀ d ∈ s.cfg.stackDepth, s.stack.length ≤ d

/-- What holds in every state a run from reset reaches: memory canonical and within 4096 bytes, the parameters
legal (R7), the stack within its depth (R14), every return address one that Call can push (R120 (c)), and `pc` at
most 0x10FE (R13). -/
abbrev State.Inv (s : State) : Prop :=
  s.mem.wf ∧ s.cfg.wf ∧ s.stackFits ∧ (∀ r ∈ s.stack, r.toNat ≤ 0xFFE) ∧ s.pc.toNat ≤ 0x10FE

/-! ## Safe steps and the end of a run -/

/-- A step that goes on and reports no fault. -/
def SafeStep (s : State) : Prop := ∃ t, step s = .next t ∧ t.faultOut = none

/-- The word at `pc`, most-significant byte first (R41). -/
def State.fetchedWord (s : State) : Word :=
  BitVec.ofNat 16 ((s.mem.read s.pc.toNat).toNat * 256 + (s.mem.read (s.pc.toNat + 1)).toNat)

/-- The parked form of R246: the word at `pc` is `Jump pc`. -/
abbrev State.Parked (s : State) : Prop :=
  s.pc.toNat ≤ 0xFFE ∧ s.mem.read s.pc.toNat = BitVec.ofNat 8 (0x10 + s.pc.toNat / 256)
    ∧ s.mem.read (s.pc.toNat + 1) = BitVec.ofNat 8 (s.pc.toNat % 256)

/-- R246: the run has ended normally at `a`. A convention of the spec (decision D19), not an event of the
hardware. -/
abbrev State.EndedNormallyAt (s : State) (a : Word) : Prop :=
  s.pc = a ∧ s.Parked ∧ s.faultSeen = false

/-! ## Frames -/

/-- Every general register as before. -/
def SameRegs (s t : State) : Prop := ∀ r, t.readV r = s.readV r

/-- Every general register but `x` as before. -/
def SameRegsBut (x : Nibble) (s t : State) : Prop := ∀ r, r ≠ x → t.readV r = s.readV r

/-- Every general register but `x` and VF as before. -/
def SameRegsButFlag (x : Nibble) (s t : State) : Prop := ∀ r, r ≠ x → r ≠ vf → t.readV r = s.readV r

/-- Every byte of memory as before. -/
def SameMemory (s t : State) : Prop := ∀ a, t.mem.read a = s.mem.read a

/-- Every framebuffer cell as before. -/
def SameScreen (s t : State) : Prop := ∀ k, t.fb.cell k = s.fb.cell k

/-- One timer after a tick (R104): minus 1, floored at 0. -/
def TickedTimer (before after : Byte) : Prop := after.toNat = before.toNat - 1

/-- Both timers ticked (R104). -/
def Ticked (s t : State) : Prop := TickedTimer s.delay t.delay ∧ TickedTimer s.sound t.sound

/-- The step committed without a fault: its `fault` output is `none` (R108); the parameters, the inputs and the
model's record of earlier faults are as before. -/
def Committed (s t : State) : Prop :=
  t.faultOut = none ∧ t.faultSeen = s.faultSeen ∧ t.cfg = s.cfg ∧ t.keys = s.keys ∧ t.rnd = s.rnd
    ∧ t.inputIx = s.inputIx

/-- The three storage spaces of R40 as before. -/
def SameStorage (s t : State) : Prop := SameMemory s t ∧ SameScreen s t ∧ t.stack = s.stack

/-- What a register-only instruction leaves besides the registers: `I` and storage as before, both timers ticked,
`pc` plus 2. -/
def RegisterFrame (s t : State) : Prop :=
  t.I = s.I ∧ t.pc = s.pc + 2 ∧ SameStorage s t ∧ Ticked s t ∧ Committed s t

/-- What an instruction that only moves `pc` leaves: everything as before, both timers ticked. -/
def ControlFrame (s t : State) : Prop :=
  SameRegs s t ∧ t.I = s.I ∧ SameStorage s t ∧ Ticked s t ∧ Committed s t

/-- What an instruction that only writes `I` leaves besides it. -/
def IndexFrame (s t : State) : Prop :=
  SameRegs s t ∧ t.pc = s.pc + 2 ∧ SameStorage s t ∧ Ticked s t ∧ Committed s t

/-- All of the machine's state but the inputs and the model's record of faults as before (R207). -/
def SameMachine (s t : State) : Prop :=
  SameRegs s t ∧ t.I = s.I ∧ t.pc = s.pc ∧ t.stack = s.stack ∧ t.delay = s.delay ∧ t.sound = s.sound
    ∧ SameMemory s t ∧ SameScreen s t ∧ t.cfg = s.cfg

/-! ## Declarative readings -/

/-- A flag as a number: 1 or 0 (R11). -/
def flagIs (b : Byte) (p : Prop) : Prop := (p → b = 1) ∧ (¬p → b = 0)

/-- The column a sprite's left edge is at (R162 part 1). -/
def spriteColumn (s : State) (x : Nibble) : Nat := if (s.readV x).toNat < 64 then (s.readV x).toNat else 0

/-- DrawSprite XORs cell `k` (R161, R162): some row `r` and column offset `c` have their bit set, lie inside the
grid, and name `k`. -/
def SpriteDraws (s : State) (x y n : Nibble) (k : Nat) : Prop :=
  ∃ r c : Nat, r < n.toNat ∧ c < 8 ∧ (s.mem.read (s.I.toNat + r)).getLsbD (7 - c) = true
    ∧ spriteColumn s x + c ≤ 63 ∧ (s.readV y).toNat + r ≤ 31
    ∧ k = ((s.readV y).toNat + r) * 64 + (spriteColumn s x + c)

/-- R220: the sub-cause an instruction can raise itself. -/
def ownCause : Instr → Option BoundsCause
  | .call _ => some .stackOverflow
  | .drawSprite _ _ _ => some .memRead
  | .loadReg _ => some .memRead
  | .setBCD _ => some .memWrite
  | .dumpReg _ => some .memWrite
  | .skipIfPressed _ => some .keyIndex
  | .skipIfNotPressed _ => some .keyIndex
  | .waitForPress _ => some .keyIndex
  | _ => none

/-- R11: VF is written as a flag, or as the instruction's named destination. -/
def writesVF : Instr → Bool
  | .loadConst x _ => x == vf
  | .addConst x _ => x == vf
  | .assign x _ => x == vf
  | .or x _ => x == vf
  | .and x _ => x == vf
  | .xor x _ => x == vf
  | .add _ _ => true
  | .subtract _ _ => true
  | .shiftRight _ _ => true
  | .reduce _ _ => true
  | .shiftLeft _ _ => true
  | .bitwiseRandom x _ => x == vf
  | .drawSprite _ _ _ => true
  | .loadDelay x => x == vf
  | .loadReg x => x == vf
  | _ => false

/-- R12: the instructions that write `I`. -/
def writesI : Instr → Bool
  | .setMemoryAddress _ => true
  | .addOffset _ => true
  | .setMemoryForFont _ => true
  | .dumpReg _ => true
  | .loadReg _ => true
  | _ => false

/-- R20, R46: the instructions that write `mem`. -/
def writesMemory : Instr → Bool
  | .setBCD _ => true
  | .dumpReg _ => true
  | _ => false

/-- R22: the instructions that write `fb`. -/
def writesScreen : Instr → Bool
  | .clearDisplay => true
  | .drawSprite _ _ _ => true
  | _ => false

/-- R14: the instructions that touch the stack. -/
def writesStack : Instr → Bool
  | .call _ => true
  | .ret => true
  | _ => false

/-- R21: the instructions that read `keys`. -/
def readsKeys : Instr → Bool
  | .skipIfPressed _ => true
  | .skipIfNotPressed _ => true
  | .waitForPress _ => true
  | _ => false

/-- R24: the instruction that reads `rnd`. -/
def readsRnd : Instr → Bool
  | .bitwiseRandom _ _ => true
  | _ => false

end Sys2Proof.Machine
end

