-- ==== Sys2Proof/Certificates/Slice0/Obligations.lean ====
section
/-! DEFINITION. The statements for the provers, one per `def Obligations.<Name>`. Quantified over every state, so over
every parameter value, every `keys` and every `rnd`; a statement that needs the invariant says so. Effects are
stated through `readV`, `mem.read`, `fb.cell` and exact arithmetic on naturals, not through the model's updates. -/

open Sys2Proof Sys2Proof.Machine

/-! ## The decoder and the encoder -/

/-- R68, R78 (4): decoding the canonical word of an instruction gives it back, at every operand value. -/
def Obligations.DecodeEncodeRoundTrip : Prop := ∀ i : Instr, decode (encode i) = some i

/-- R73, R75, R78 (4): the encoder emits canonical words, and a canonical word that decodes is the encoding of what it
decodes to. Which nibbles are ignored is decision D21 of the spec (log 25). -/
def Obligations.CanonicalWordsAreEncodings : Prop :=
  (∀ i, canonicalWord (encode i) = true)
    ∧ ∀ w i, canonicalWord w = true → decode w = some i → encode i = w

/-- R68: `w` is the instruction of a row exactly when `w & mask = match`; row `k` is the kind with code `k` (R66). The
pairing of the F group is decision D20 of the spec (log 24: DEDUCED), the ignored nibbles its decision D21 (log 25).
-/
def Obligations.DecodeIsTheMatchingRow : Prop :=
  ∀ (w : Word) (k : Nat) (r : Row), opcodeRows[k]? = some r →
    (r.accepts w = true ↔ ∃ i, decode w = some i ∧ (kindCode i).toNat = k)

/-- R74: the unrecognized words are the four groups of its table. The pairing of the F group is decision D20 of the
spec (log 24: DEDUCED), the ignored nibbles its decision D21 (log 25). -/
def Obligations.UnrecognizedWordsAreFourGroups : Prop :=
  ∀ w : Word, decode w = none ↔
    (fieldN0 w = 0x0 ∧ fieldKK w ∉ ([0xE0, 0xEE] : List Byte))
      ∨ (fieldN0 w = 0x8 ∧ fieldN w ∈ ([0x8, 0x9, 0xA, 0xB, 0xC, 0xD, 0xF] : List Nibble))
      ∨ (fieldN0 w = 0xE ∧ fieldKK w ∉ ([0x9E, 0xA1] : List Byte))
      ∨ (fieldN0 w = 0xF
          ∧ fieldKK w ∉ ([0x07, 0x0A, 0x15, 0x18, 0x1E, 0x29, 0x33, 0x55, 0x65] : List Byte))

/-- R73, R78 (5): two words give the same instruction exactly when they differ only in an ignored nibble: `n1` for `n0
= 0`, `n3` for `n0` 5 and 9 (decision D21 of the spec, log 25). -/
def Obligations.OnlyIgnoredNibblesAreDropped : Prop :=
  ∀ (w u : Word) (i : Instr), decode w = some i →
    (decode u = some i ↔
      if fieldN0 w = 0x0 then fieldN0 u = 0x0 ∧ fieldKK u = fieldKK w
      else if fieldN0 w = 0x5 ∨ fieldN0 w = 0x9 then
        fieldN0 u = fieldN0 w ∧ fieldX u = fieldX w ∧ fieldY u = fieldY w
      else u = w)

/-- R65, R66, R79 (decision D2 of the spec, log 26): the ports of the decoder block: the operand ports carry the
word's bits, `kind` is the code of the decoded instruction (0 to 33), or 63 with `valid = 0`. -/
def Obligations.DecoderPortsCarryTheWord : Prop :=
  ∀ w : Word, (decoderPorts w).x.toNat = w.toNat / 256 % 16 ∧ (decoderPorts w).y.toNat = w.toNat / 16 % 16
    ∧ (decoderPorts w).n.toNat = w.toNat % 16 ∧ (decoderPorts w).kk.toNat = w.toNat % 256
    ∧ (decoderPorts w).nnn.toNat = w.toNat % 4096
    ∧ (decode w = none → (decoderPorts w).valid = false ∧ (decoderPorts w).kind.toNat = 63)
    ∧ ∀ i, decode w = some i → (decoderPorts w).valid = true ∧ (decoderPorts w).kind = kindCode i
        ∧ (decoderPorts w).kind.toNat ≤ 33

/-- Words of the spec (95_test_vectors.md section 2.1; S1 and S2 of its section 1) as the decoder reads them from
memory, each family once. The pairing of the F group is decision D20 of the spec (log 24: DEDUCED), the ignored
nibbles its decision D21 (log 25). -/
def Obligations.SpecWordsDecode : Prop :=
  decodeTableWord 16 0x1123 = some (.jump 0x123) ∧ decodeTableWord 16 0x6678 = some (.loadConst 6 0x78)
    ∧ decodeTableWord 16 0xD123 = some (.drawSprite 1 2 3) ∧ decodeTableWord 16 0xF10A = some (.waitForPress 1)
    ∧ decodeTableWord 16 0xF133 = some (.setBCD 1) ∧ decodeTableWord 16 0x8AB7 = some (.reduce 0xA 0xB)
    ∧ decodeTableWord 16 0x0AE0 = some .clearDisplay ∧ decodeTableWord 16 0x0000 = none
    ∧ decodeTableWord 16 0x8AB8 = none

/-! ## The step -/

/-- R100, R101, R111: where the word at `pc` decodes, the step is the instruction's execution; after it only the
inputs of the next step are presented (the model's free values and counter, log 2). -/
def Obligations.StepRunsTheDecodedInstruction : Prop :=
  ∀ (s : State) (i : Instr), s.pc.toNat ≤ 0xFFE → decode (s.fetchedWord) = some i →
    (∀ t, exec i s = .next t → step s = .next { t with
        keys := Config.keysAt (t.inputIx + 1), rnd := Config.rndAt (t.inputIx + 1), inputIx := t.inputIx + 1 })
      ∧ ∀ f, exec i s = .fault f → step s = .fault f

/-- R41, R101 (decisions D11, D23 of the spec, log 14): a fetch above 0xFFE faults, at 0xFFF naming 0x1000. -/
def Obligations.FetchPastTheEndFaults : Prop :=
  ∀ s : State, 0xFFE < s.pc.toNat →
    step s = .fault (.boundsFault .fetch (if s.pc.toNat = 0xFFF then 0x1000 else s.pc.toNat) s.pc)

/-- R102, R208 (decision D10 of the spec, log 10): an unrecognized word under `skip` adds 2 to `pc`, reports the fault
and changes nothing else, the timers included; under `halt` it faults. -/
def Obligations.UnrecognizedWordFollowsThePolicy : Prop :=
  ∀ s : State, s.pc.toNat ≤ 0xFFE → decode (s.fetchedWord) = none →
    (s.cfg.decodeFaultPolicy = .skip → ∃ t, step s = .next t ∧ t.pc = s.pc + 2
        ∧ t.faultOut = some (.decodeFault (s.fetchedWord) s.pc) ∧ t.faultSeen = true ∧ SameRegs s t ∧ t.I = s.I
        ∧ t.stack = s.stack ∧ t.delay = s.delay ∧ t.sound = s.sound ∧ SameMemory s t ∧ SameScreen s t
        ∧ t.cfg = s.cfg)
      ∧ (s.cfg.decodeFaultPolicy = .halt → step s = .fault (.decodeFault (s.fetchedWord) s.pc))

/-- R207 (b), R208 (decisions D9, D10 of the spec, log 9 and 10): a state whose step faults is a fixed point: a
further tick, whatever inputs the host presents, raises the same fault, and nothing of the machine changes. -/
def Obligations.FaultedStateIsAFixedPoint : Prop :=
  ∀ (s : State) (f : Fault), step s = .fault f →
    (∀ keys rnd, step (s.tick.present keys rnd) = .fault f) ∧ SameMachine s s.tick
      ∧ s.tick.faultOut = some f ∧ s.tick.faultSeen = true

/-- R220 (decision D9 of the spec, log 9): an instruction's own fault is a BoundsFault of the sub-cause its row names,
at its own address; the other 26 instructions raise none. -/
def Obligations.InstructionFaultsAreTheListed : Prop :=
  ∀ (i : Instr) (s : State) (f : Fault), exec i s = .fault f →
    ∃ c v, ownCause i = some c ∧ f = .boundsFault c v s.pc

/-- R202, R204 (decisions D9, D18 of the spec, log 9 and 27): what a BoundsFault of a step records, in which state,
and that it fits the 16-bit port. -/
def Obligations.BoundsFaultRecordsItsValue : Prop :=
  ∀ (s : State) (c : BoundsCause) (v : Nat) (p : Word), step s = .fault (.boundsFault c v p) →
    p = s.pc ∧ v < 65536 ∧
      match c with
      | .fetch => 0xFFE < s.pc.toNat ∧ v = max s.pc.toNat 0x1000
      | .memRead => v = max s.I.toNat 0x1000
      | .memWrite => v = max s.I.toNat 0x1000
      | .keyIndex => 15 < v ∧ ∃ x, v = (s.readV x).toNat
      | .stackOverflow => v = s.pc.toNat ∧ ∃ d, s.cfg.stackDepth = some d ∧ d ≤ s.stack.length

/-- Every instruction has a meaning in every state: nothing is ever refused, by an instruction or by a step. -/
def Obligations.NothingIsRefused : Prop :=
  (∀ (i : Instr) (s : State) (q : Refusal), exec i s ≠ .refused q) ∧ ∀ (s : State) (q : Refusal), step s ≠ .refused q

/-! ## Invariants -/

/-- R13, R14, R20, R26, R120 (c): every step keeps the memory canonical and within 4096 bytes, the parameters legal,
the stack within its depth, every return address at most 0xFFE, and `pc` at most 0x10FE. -/
def Obligations.EveryStepKeepsTheInvariant : Prop := ∀ s t : State, s.Inv → step s = .next t → t.Inv

/-- The invariant holds right after reset. -/
def Obligations.ResetMeetsTheInvariant : Prop := State.reset.Inv

/-- R240 (the reset port, log 8): a reset with arguments, from any state, answers a state that meets the invariant. -/
def Obligations.HostResetMeetsTheInvariant : Prop :=
  ∀ (s t : State) (a : ResetArgs), s.hostReset a = .next t → t.Inv

/-! ## Which instructions touch what -/

/-- R20, R46: only SetBCD and DumpReg write `mem`. -/
def Obligations.OnlySetBCDAndDumpRegWriteMemory : Prop :=
  ∀ (i : Instr) (s t : State), writesMemory i = false → exec i s = .next t → SameMemory s t

/-- R22: only ClearDisplay and DrawSprite write `fb`. -/
def Obligations.OnlyDisplayInstructionsWriteTheScreen : Prop :=
  ∀ (i : Instr) (s t : State), writesScreen i = false → exec i s = .next t → SameScreen s t

/-- R14: only Call pushes and only Return pops. -/
def Obligations.OnlyCallAndReturnTouchTheStack : Prop :=
  ∀ (i : Instr) (s t : State), exec i s = .next t →
    (writesStack i = false → t.stack = s.stack)
      ∧ ((∃ nnn, i = .call nnn) → t.stack = s.pc :: s.stack) ∧ (i = .ret → t.stack = s.stack.tail)

/-- R12: only the five named instructions write `I`. -/
def Obligations.OnlyIndexInstructionsWriteI : Prop :=
  ∀ (i : Instr) (s t : State), writesI i = false → exec i s = .next t → t.I = s.I

/-- R11: VF is left alone by every instruction but the seven of its table and those that name it as destination. -/
def Obligations.VFIsWrittenOnlyWhereListed : Prop :=
  ∀ (i : Instr) (s t : State), writesVF i = false → exec i s = .next t → t.readV vf = s.readV vf

/-- R104: every decoded instruction ticks both timers, but for the one that SetDelay or SetSound overwrites, which
equals the register exactly. -/
def Obligations.EveryInstructionTicksTheTimers : Prop :=
  ∀ (i : Instr) (s t : State), exec i s = .next t →
    ((∀ x, i ≠ .setDelay x) → TickedTimer s.delay t.delay) ∧ ((∀ x, i ≠ .setSound x) → TickedTimer s.sound t.sound)
      ∧ (∀ x, i = .setDelay x → t.delay = s.readV x) ∧ ∀ x, i = .setSound x → t.sound = s.readV x

/-- R21, R24: the key flags are read only by the three key instructions and the random byte only by BitwiseRandom:
with other values presented, every other instruction ends the same way. -/
def Obligations.InputsAreReadOnlyWhereListed : Prop :=
  ∀ (i : Instr) (s : State) (keys : BitVec 16) (rnd : Byte), (readsKeys i = false ∨ keys = s.keys) →
    (readsRnd i = false ∨ rnd = s.rnd) →
    match exec i s with
    | .next t => exec i (s.present keys rnd) = .next (t.present keys rnd)
    | .fault f => exec i (s.present keys rnd) = .fault f
    | .refused q => exec i (s.present keys rnd) = .refused q

/-! ## Reset -/

/-- The reset state (R28's table), with the default parameters of R7: `pc` 0x200 and the empty stack follow from the
source; the zeros are the spec's decision D13 (log 4) and the 80 font bytes, written out from R27's table, its
decision D14 (log 5). That no fault is recorded is the model's own field (log 11). -/
def Obligations.ResetState : Prop :=
  State.reset.pc = 0x200 ∧ State.reset.stack = [] ∧ (∀ r, State.reset.readV r = 0) ∧ State.reset.I = 0
    ∧ State.reset.delay = 0 ∧ State.reset.sound = 0 ∧ (∀ k, State.reset.fb.cell k = false)
    ∧ (List.range 80).map State.reset.mem.read =
        [0xF0, 0x90, 0x90, 0x90, 0xF0, 0x20, 0x60, 0x20, 0x20, 0x70]
        ++ [0xF0, 0x10, 0xF0, 0x80, 0xF0, 0xF0, 0x10, 0xF0, 0x10, 0xF0]
        ++ [0x90, 0x90, 0xF0, 0x10, 0x10, 0xF0, 0x80, 0xF0, 0x10, 0xF0]
        ++ [0xF0, 0x80, 0xF0, 0x90, 0xF0, 0xF0, 0x10, 0x20, 0x40, 0x40]
        ++ [0xF0, 0x90, 0xF0, 0x90, 0xF0, 0xF0, 0x90, 0xF0, 0x10, 0xF0]
        ++ [0xF0, 0x90, 0xF0, 0x90, 0x90, 0xE0, 0x90, 0xE0, 0x90, 0xE0]
        ++ [0xF0, 0x80, 0x80, 0x80, 0xF0, 0xE0, 0x90, 0x90, 0x90, 0xE0]
        ++ [0xF0, 0x80, 0xF0, 0x80, 0xF0, 0xF0, 0x80, 0xF0, 0x80, 0x80]
    ∧ (∀ a, 80 ≤ a → State.reset.mem.read a = 0)
    ∧ State.reset.cfg.stackDepth = some 16 ∧ State.reset.cfg.decodeFaultPolicy = .skip
    ∧ State.reset.faultOut = none ∧ State.reset.faultSeen = false

/-- R7, R28, R240, R241 (decisions D13, D22 of the spec, log 4 and 8): reset with any legal program, font and
parameters, from any state: the font lies at 0x000, the program verbatim from 0x200, every other byte is 0, the
parameters are the ones given, no fault is recorded (log 11) and the rest is as in R28. A program that does not fit
and an illegal font or depth are refused (log 8). With the empty program and the defaults it is `State.reset`, with
fresh inputs (log 2). -/
def Obligations.ResetLoadsTheProgram : Prop :=
  ∀ (s : State) (a : ResetArgs),
    (a.program.length ≤ 3584 → a.font.length = 80 → a.cfg.stackDepth ≠ some 0 →
        ∃ t, s.hostReset a = .next t ∧ t.pc = 0x200 ∧ t.stack = [] ∧ (∀ r, t.readV r = 0) ∧ t.I = 0
          ∧ t.delay = 0 ∧ t.sound = 0 ∧ (∀ k, t.fb.cell k = false)
          ∧ (∀ k (h : k < a.font.length), t.mem.read k = a.font[k])
          ∧ (∀ k (h : k < a.program.length), t.mem.read (0x200 + k) = a.program[k])
          ∧ (∀ b, 80 ≤ b → (b < 0x200 ∨ 0x200 + a.program.length ≤ b) → t.mem.read b = 0)
          ∧ t.cfg = a.cfg ∧ t.faultOut = none ∧ t.faultSeen = false)
      ∧ (3584 < a.program.length → s.hostReset a = .refused (.programTooLong a.program.length))
      ∧ (a.program.length ≤ 3584 → (a.font.length ≠ 80 ∨ a.cfg.stackDepth = some 0) →
          s.hostReset a = .refused .illegalParameter)
      ∧ s.hostReset (ResetArgs.ofProgram []) = .next { State.reset with
          keys := Config.keysAt (s.inputIx + 1), rnd := Config.rndAt (s.inputIx + 1), inputIx := s.inputIx + 1 }

/-! ## The host's ports -/

/-- R204 (decisions D9, D10, D18 of the spec, log 9, 10 and 27): what the four fault ports read after a tick. After an
unrecognized word, under either policy: class 1, sub-cause 0, the word and the step's `pc`. After a BoundsFault: class
2, the number of its sub-cause, its exact value and the step's `pc`. After an instruction that completed: class and
sub-cause 0. -/
def Obligations.FaultPortsCarryTheStepsFault : Prop :=
  ∀ s : State,
    (s.pc.toNat ≤ 0xFFE → decode s.fetchedWord = none →
        faultClass s.tick.faultOut = 1 ∧ faultSub s.tick.faultOut = 0
          ∧ faultValue s.tick.faultOut = s.fetchedWord ∧ faultPc s.tick.faultOut = s.pc)
      ∧ (∀ c v p, step s = .fault (.boundsFault c v p) →
          faultClass s.tick.faultOut = 2 ∧ (faultValue s.tick.faultOut).toNat = v ∧ faultPc s.tick.faultOut = s.pc
            ∧ (faultSub s.tick.faultOut).toNat =
                match c with
                | .fetch => 1
                | .memRead => 2
                | .memWrite => 3
                | .keyIndex => 4
                | .stackOverflow => 5)
      ∧ ∀ i t, s.pc.toNat ≤ 0xFFE → decode s.fetchedWord = some i → exec i s = .next t →
          faultClass s.tick.faultOut = 0 ∧ faultSub s.tick.faultOut = 0

/-- R22, R23, R245 (decision D24 of the spec, log 22): the host reads 2048 cells in row-major order; entry `py * 64 +
px` is the cell of column `px` and row `py`. -/
def Obligations.FramebufferPortListsTheCells : Prop :=
  ∀ s : State, s.framebufferPort.length = 2048
    ∧ (∀ k, k < 2048 → s.framebufferPort[k]? = some (s.fb.cell k))
    ∧ ∀ px py, px < 64 → (h : py < 32) → s.framebufferPort[py * 64 + px]? = some (s.fb[py].getLsbD px)

/-! ## Control flow -/

/-- R120, R16 (for the empty stack decision D7 of the spec, for the plus 2 conflict C1, log 16): Return resumes at the
popped address plus 2; on an empty stack it only moves on. That `0?EE` decodes to Return for every nibble, `n1` being
ignored, is R73 (decision D21 of the spec, log 25). -/
def Obligations.ReturnPopsAndAddsTwo : Prop :=
  (∀ n : Nibble, decode (wordXK 0x0 n 0xEE) = some .ret)
    ∧ ∀ s : State, ∃ t, exec .ret s = .next t
      ∧ (s.stack = [] → t.pc = s.pc + 2 ∧ t.stack = [])
      ∧ (∀ r rest, s.stack = r :: rest → t.pc.toNat = (r.toNat + 2) % 65536 ∧ t.stack = rest)
      ∧ SameRegs s t ∧ t.I = s.I ∧ SameMemory s t ∧ SameScreen s t ∧ Ticked s t ∧ Committed s t

/-- R121: Jump. -/
def Obligations.JumpSetsThePc : Prop :=
  ∀ (nnn : Addr12) (s : State), decode (wordA 0x1 nnn) = some (.jump nnn)
    ∧ ∃ t, exec (.jump nnn) s = .next t ∧ t.pc.toNat = nnn.toNat ∧ ControlFrame s t

/-- R122, R15 (for the depth decision D6 of the spec, log 15): Call pushes its own address, or faults on a full stack.
-/
def Obligations.CallPushesItsAddress : Prop :=
  ∀ (nnn : Addr12) (s : State), decode (wordA 0x2 nnn) = some (.call nnn)
    ∧ ((∀ d, s.cfg.stackDepth = some d → s.stack.length < d) →
        ∃ t, exec (.call nnn) s = .next t ∧ t.pc.toNat = nnn.toNat ∧ t.stack = s.pc :: s.stack ∧ SameRegs s t
          ∧ t.I = s.I ∧ SameMemory s t ∧ SameScreen s t ∧ Ticked s t ∧ Committed s t)
    ∧ ∀ d, s.cfg.stackDepth = some d → d ≤ s.stack.length →
        exec (.call nnn) s = .fault (.boundsFault .stackOverflow s.pc.toNat s.pc)

/-- R123 (decision D4 of the spec, log 12): the target is the exact sum of `NNN` and V0. -/
def Obligations.JumpToV0AddressAddsV0 : Prop :=
  ∀ (nnn : Addr12) (s : State), decode (wordA 0xB nnn) = some (.jumpToV0Address nnn)
    ∧ ∃ t, exec (.jumpToV0Address nnn) s = .next t ∧ t.pc.toNat = nnn.toNat + (s.readV 0).toNat ∧ ControlFrame s t

/-- R124, R125: the skips that compare a register with an immediate. -/
def Obligations.ConstantSkipsCompareAllBits : Prop :=
  ∀ (x : Nibble) (kk : Byte) (s : State),
    decode (wordXK 0x3 x kk) = some (.skipEqConst x kk) ∧ decode (wordXK 0x4 x kk) = some (.skipNeConst x kk)
      ∧ (∃ t, exec (.skipEqConst x kk) s = .next t ∧ ControlFrame s t
          ∧ t.pc = if (s.readV x).toNat = kk.toNat then s.pc + 4 else s.pc + 2)
      ∧ ∃ t, exec (.skipNeConst x kk) s = .next t ∧ ControlFrame s t
          ∧ t.pc = if (s.readV x).toNat ≠ kk.toNat then s.pc + 4 else s.pc + 2

/-- R126, R127: the skips that compare two registers; the low nibble of the word is ignored (decision D21 of the spec,
log 25). -/
def Obligations.RegisterSkipsCompareTwoRegisters : Prop :=
  ∀ (x y n : Nibble) (s : State),
    decode (wordXYN 0x5 x y n) = some (.skipEqReg x y) ∧ decode (wordXYN 0x9 x y n) = some (.skipNeReg x y)
      ∧ (∃ t, exec (.skipEqReg x y) s = .next t ∧ ControlFrame s t
          ∧ t.pc = if (s.readV x).toNat = (s.readV y).toNat then s.pc + 4 else s.pc + 2)
      ∧ ∃ t, exec (.skipNeReg x y) s = .next t ∧ ControlFrame s t
          ∧ t.pc = if (s.readV x).toNat ≠ (s.readV y).toNat then s.pc + 4 else s.pc + 2

/-! ## Loads, arithmetic, logic, shifts, random -/

/-- R140: LoadConst. -/
def Obligations.LoadConstWritesTheImmediate : Prop :=
  ∀ (x : Nibble) (kk : Byte) (s : State), decode (wordXK 0x6 x kk) = some (.loadConst x kk)
    ∧ ∃ t, exec (.loadConst x kk) s = .next t ∧ t.readV x = kk ∧ SameRegsBut x s t ∧ RegisterFrame s t

/-- R141: AddConst wraps modulo 256 and records no carry. -/
def Obligations.AddConstWraps : Prop :=
  ∀ (x : Nibble) (kk : Byte) (s : State), decode (wordXK 0x7 x kk) = some (.addConst x kk)
    ∧ ∃ t, exec (.addConst x kk) s = .next t ∧ (t.readV x).toNat = ((s.readV x).toNat + kk.toNat) % 256
      ∧ SameRegsBut x s t ∧ RegisterFrame s t

/-- R142 to R145: Assign, Or, And, Xor, bit by bit; no other register changes, VF included unless it is `x`. -/
def Obligations.LogicOperationsWorkBitwise : Prop :=
  ∀ (x y : Nibble) (s : State),
    (decode (wordXYN 0x8 x y 0x0) = some (.assign x y) ∧ decode (wordXYN 0x8 x y 0x1) = some (.or x y)
        ∧ decode (wordXYN 0x8 x y 0x2) = some (.and x y) ∧ decode (wordXYN 0x8 x y 0x3) = some (.xor x y))
      ∧ (∃ t, exec (.assign x y) s = .next t ∧ t.readV x = s.readV y ∧ SameRegsBut x s t ∧ RegisterFrame s t)
      ∧ (∃ t, exec (.or x y) s = .next t ∧ SameRegsBut x s t ∧ RegisterFrame s t
          ∧ ∀ b, b < 8 → (t.readV x).getLsbD b = ((s.readV x).getLsbD b || (s.readV y).getLsbD b))
      ∧ (∃ t, exec (.and x y) s = .next t ∧ SameRegsBut x s t ∧ RegisterFrame s t
          ∧ ∀ b, b < 8 → (t.readV x).getLsbD b = ((s.readV x).getLsbD b && (s.readV y).getLsbD b))
      ∧ ∃ t, exec (.xor x y) s = .next t ∧ SameRegsBut x s t ∧ RegisterFrame s t
          ∧ ∀ b, b < 8 → (t.readV x).getLsbD b = ((s.readV x).getLsbD b != (s.readV y).getLsbD b)

/-- R150: Add. With `x = F` the flag stays and the sum is lost (decision D8 of the spec, log 17). -/
def Obligations.AddWritesSumAndCarry : Prop :=
  ∀ (x y : Nibble) (s : State), decode (wordXYN 0x8 x y 0x4) = some (.add x y)
    ∧ ∃ t, exec (.add x y) s = .next t
      ∧ (x ≠ vf → (t.readV x).toNat = ((s.readV x).toNat + (s.readV y).toNat) % 256)
      ∧ flagIs (t.readV vf) (255 < (s.readV x).toNat + (s.readV y).toNat)
      ∧ SameRegsButFlag x s t ∧ RegisterFrame s t

/-- R151: Subtract, with the strict comparison (conflict C2, log 18). With `x = F` the flag stays (decision D8 of the
spec, log 17). -/
def Obligations.SubtractWritesDifferenceAndFlag : Prop :=
  ∀ (x y : Nibble) (s : State), decode (wordXYN 0x8 x y 0x5) = some (.subtract x y)
    ∧ ∃ t, exec (.subtract x y) s = .next t
      ∧ (x ≠ vf → (t.readV x).toNat = ((s.readV x).toNat + 256 - (s.readV y).toNat) % 256)
      ∧ flagIs (t.readV vf) ((s.readV x).toNat > (s.readV y).toNat)
      ∧ SameRegsButFlag x s t ∧ RegisterFrame s t

/-- R152: ShiftRight of `V[y]`. With `x = F` the flag stays (decision D8 of the spec, log 17). -/
def Obligations.ShiftRightShiftsTheSecondRegister : Prop :=
  ∀ (x y : Nibble) (s : State), decode (wordXYN 0x8 x y 0x6) = some (.shiftRight x y)
    ∧ ∃ t, exec (.shiftRight x y) s = .next t
      ∧ (x ≠ vf → (t.readV x).toNat = (s.readV y).toNat / 2)
      ∧ flagIs (t.readV vf) ((s.readV y).toNat % 2 = 1)
      ∧ SameRegsButFlag x s t ∧ RegisterFrame s t

/-- R153: Reduce, with the strict comparison (conflict C2, log 18). With `x = F` the flag stays (decision D8 of the
spec, log 17). -/
def Obligations.ReduceWritesDifferenceAndFlag : Prop :=
  ∀ (x y : Nibble) (s : State), decode (wordXYN 0x8 x y 0x7) = some (.reduce x y)
    ∧ ∃ t, exec (.reduce x y) s = .next t
      ∧ (x ≠ vf → (t.readV x).toNat = ((s.readV y).toNat + 256 - (s.readV x).toNat) % 256)
      ∧ flagIs (t.readV vf) ((s.readV y).toNat > (s.readV x).toNat)
      ∧ SameRegsButFlag x s t ∧ RegisterFrame s t

/-- R154: ShiftLeft of `V[y]`. With `x = F` the flag stays (decision D8 of the spec, log 17). -/
def Obligations.ShiftLeftShiftsTheSecondRegister : Prop :=
  ∀ (x y : Nibble) (s : State), decode (wordXYN 0x8 x y 0xE) = some (.shiftLeft x y)
    ∧ ∃ t, exec (.shiftLeft x y) s = .next t
      ∧ (x ≠ vf → (t.readV x).toNat = (s.readV y).toNat * 2 % 256)
      ∧ flagIs (t.readV vf) (128 ≤ (s.readV y).toNat)
      ∧ SameRegsButFlag x s t ∧ RegisterFrame s t

/-- R155: BitwiseRandom, for every random byte. -/
def Obligations.BitwiseRandomMasksTheInput : Prop :=
  ∀ (x : Nibble) (kk : Byte) (s : State), decode (wordXK 0xC x kk) = some (.bitwiseRandom x kk)
    ∧ ∃ t, exec (.bitwiseRandom x kk) s = .next t ∧ SameRegsBut x s t ∧ RegisterFrame s t
      ∧ ∀ b, b < 8 → (t.readV x).getLsbD b = (s.rnd.getLsbD b && kk.getLsbD b)

/-! ## Display -/

/-- R160: ClearDisplay zeroes every cell and writes nothing else; `n1` of the word is ignored (decision D21 of the
spec, log 25). -/
def Obligations.ClearDisplayZeroesTheScreen : Prop :=
  (∀ n : Nibble, decode (wordXK 0x0 n 0xE0) = some .clearDisplay)
    ∧ ∀ s : State, ∃ t, exec .clearDisplay s = .next t ∧ (∀ k, t.fb.cell k = false) ∧ SameRegs s t ∧ t.I = s.I
      ∧ t.pc = s.pc + 2 ∧ SameMemory s t ∧ t.stack = s.stack ∧ Ticked s t ∧ Committed s t

/-- R161 to R164 (decision D12 of the spec, log 19; the coordinates are register contents, N9, log 21): where its `N`
bytes lie in memory, DrawSprite XORs exactly the cells `SpriteDraws` names, VF says whether one of them was set, and
nothing else changes. -/
def Obligations.DrawSpriteFlipsExactlyTheSpriteCells : Prop :=
  ∀ (x y n : Nibble) (s : State), decode (wordXYN 0xD x y n) = some (.drawSprite x y n)
    ∧ ((n = 0 ∨ s.I.toNat + n.toNat ≤ 0x1000) → ∃ t, exec (.drawSprite x y n) s = .next t
        ∧ (∀ k, SpriteDraws s x y n k → t.fb.cell k = !s.fb.cell k)
        ∧ (∀ k, ¬SpriteDraws s x y n k → t.fb.cell k = s.fb.cell k)
        ∧ flagIs (t.readV vf) (∃ k, SpriteDraws s x y n k ∧ s.fb.cell k = true)
        ∧ SameRegsBut vf s t ∧ t.I = s.I ∧ t.pc = s.pc + 2 ∧ SameMemory s t ∧ t.stack = s.stack ∧ Ticked s t
        ∧ Committed s t)

/-- R161, R163: drawing the same sprite at the same place again, whatever happened to the rest of the machine between,
restores the framebuffer; VF then says whether the sprite drew a cell that held 0 at first. (R161 (e) says VF is then
1 if the sprite has any set bit inside the grid; by R163 that is so unless every drawn cell held 1 at first, log 20.)
-/
def Obligations.DrawingTwiceRestoresTheScreen : Prop :=
  ∀ (x y n : Nibble) (s t u w : State), exec (.drawSprite x y n) s = .next t →
    u.I = s.I → SameMemory s u → u.readV x = s.readV x → u.readV y = s.readV y → SameScreen t u →
    exec (.drawSprite x y n) u = .next w →
    SameScreen s w ∧ flagIs (w.readV vf) (∃ k, SpriteDraws s x y n k ∧ s.fb.cell k = false)

/-! ## Keys and timers -/

/-- R170, R171: the key skips, and KeyIndex above 15 (what a fault leaves: log 9). -/
def Obligations.KeySkipsReadOneKey : Prop :=
  ∀ (x : Nibble) (s : State),
    decode (wordXK 0xE x 0x9E) = some (.skipIfPressed x) ∧ decode (wordXK 0xE x 0xA1) = some (.skipIfNotPressed x)
      ∧ ((s.readV x).toNat ≤ 15 →
          (∃ t, exec (.skipIfPressed x) s = .next t ∧ ControlFrame s t
            ∧ t.pc = if s.keys.getLsbD (s.readV x).toNat = true then s.pc + 4 else s.pc + 2)
          ∧ ∃ t, exec (.skipIfNotPressed x) s = .next t ∧ ControlFrame s t
            ∧ t.pc = if s.keys.getLsbD (s.readV x).toNat = false then s.pc + 4 else s.pc + 2)
      ∧ (15 < (s.readV x).toNat →
          exec (.skipIfPressed x) s = .fault (.boundsFault .keyIndex (s.readV x).toNat s.pc)
          ∧ exec (.skipIfNotPressed x) s = .fault (.boundsFault .keyIndex (s.readV x).toNat s.pc))

/-- R172: WaitForPress holds `pc` until the selected key is held, writes no register, and ticks while waiting;
KeyIndex above 15 (what a fault leaves: log 9). The decoding of FX0A rests on the pairing of the F group by order
(decision D20 of the spec, N7, log 24: DEDUCED). -/
def Obligations.WaitForPressHoldsThePc : Prop :=
  ∀ (x : Nibble) (s : State), decode (wordXK 0xF x 0x0A) = some (.waitForPress x)
    ∧ ((s.readV x).toNat ≤ 15 → ∃ t, exec (.waitForPress x) s = .next t ∧ ControlFrame s t
        ∧ t.pc = if s.keys.getLsbD (s.readV x).toNat = true then s.pc + 2 else s.pc)
    ∧ (15 < (s.readV x).toNat →
        exec (.waitForPress x) s = .fault (.boundsFault .keyIndex (s.readV x).toNat s.pc))

/-- R173: LoadDelay reads the delay timer after this step's tick. The decoding of FX07 rests on the pairing of the F
group by order (decision D20 of the spec, N7, log 24: DEDUCED). -/
def Obligations.LoadDelayReadsTheTickedTimer : Prop :=
  ∀ (x : Nibble) (s : State), decode (wordXK 0xF x 0x07) = some (.loadDelay x)
    ∧ ∃ t, exec (.loadDelay x) s = .next t ∧ (t.readV x).toNat = s.delay.toNat - 1 ∧ SameRegsBut x s t
      ∧ RegisterFrame s t

/-- R174, R175: SetDelay and SetSound overwrite the ticked value; the other timer ticks. The decoding of FX15 and FX18
rests on the pairing of the F group by order (decision D20 of the spec, N7, log 24: DEDUCED). -/
def Obligations.SetTimersOverwriteTheTick : Prop :=
  ∀ (x : Nibble) (s : State),
    decode (wordXK 0xF x 0x15) = some (.setDelay x) ∧ decode (wordXK 0xF x 0x18) = some (.setSound x)
      ∧ (∃ t, exec (.setDelay x) s = .next t ∧ t.delay = s.readV x ∧ TickedTimer s.sound t.sound ∧ SameRegs s t
          ∧ t.I = s.I ∧ t.pc = s.pc + 2 ∧ SameStorage s t ∧ Committed s t)
      ∧ ∃ t, exec (.setSound x) s = .next t ∧ t.sound = s.readV x ∧ TickedTimer s.delay t.delay ∧ SameRegs s t
          ∧ t.I = s.I ∧ t.pc = s.pc + 2 ∧ SameStorage s t ∧ Committed s t

/-! ## The address register and the memory blocks -/

/-- R180: SetMemoryAddress. -/
def Obligations.SetMemoryAddressLoadsI : Prop :=
  ∀ (nnn : Addr12) (s : State), decode (wordA 0xA nnn) = some (.setMemoryAddress nnn)
    ∧ ∃ t, exec (.setMemoryAddress nnn) s = .next t ∧ t.I.toNat = nnn.toNat ∧ IndexFrame s t

/-- R181 (for the wrap decision D17 of the spec, log 23), R182: AddOffset adds modulo 65536; SetMemoryForFont
multiplies the whole register by 5, exactly. Neither writes VF. The decoding of FX1E and FX29 rests on the pairing of
the F group by order (decision D20 of the spec, N7, log 24: DEDUCED). -/
def Obligations.IndexArithmetic : Prop :=
  ∀ (x : Nibble) (s : State),
    decode (wordXK 0xF x 0x1E) = some (.addOffset x) ∧ decode (wordXK 0xF x 0x29) = some (.setMemoryForFont x)
      ∧ (∃ t, exec (.addOffset x) s = .next t ∧ t.I.toNat = (s.I.toNat + (s.readV x).toNat) % 65536
          ∧ IndexFrame s t)
      ∧ ∃ t, exec (.setMemoryForFont x) s = .next t ∧ t.I.toNat = (s.readV x).toNat * 5 ∧ IndexFrame s t

/-- R183: SetBCD stores the three digits at `I`, `I + 1`, `I + 2` and changes nothing else. The decoding of FX33 rests
on the pairing of the F group by order (decision D20 of the spec, N7, log 24: DEDUCED). -/
def Obligations.SetBCDStoresThreeDigits : Prop :=
  ∀ (x : Nibble) (s : State), decode (wordXK 0xF x 0x33) = some (.setBCD x)
    ∧ (s.I.toNat + 2 ≤ 0xFFF → ∃ t, exec (.setBCD x) s = .next t
        ∧ (t.mem.read s.I.toNat).toNat = (s.readV x).toNat / 100
        ∧ (t.mem.read (s.I.toNat + 1)).toNat = (s.readV x).toNat / 10 % 10
        ∧ (t.mem.read (s.I.toNat + 2)).toNat = (s.readV x).toNat % 10
        ∧ (∀ a, (a < s.I.toNat ∨ s.I.toNat + 2 < a) → t.mem.read a = s.mem.read a)
        ∧ SameRegs s t ∧ t.I = s.I ∧ t.pc = s.pc + 2 ∧ SameScreen s t ∧ t.stack = s.stack ∧ Ticked s t
        ∧ Committed s t)

/-- R184: DumpReg stores V0 to VX from `I` up and advances `I` by `X + 1`. The decoding of FX55 rests on the pairing
of the F group by order (decision D20 of the spec, N7, log 24: DEDUCED). -/
def Obligations.DumpRegStoresTheRegisters : Prop :=
  ∀ (x : Nibble) (s : State), decode (wordXK 0xF x 0x55) = some (.dumpReg x)
    ∧ (s.I.toNat + x.toNat ≤ 0xFFF → ∃ t, exec (.dumpReg x) s = .next t
        ∧ (∀ r : Nibble, r.toNat ≤ x.toNat → t.mem.read (s.I.toNat + r.toNat) = s.readV r)
        ∧ (∀ a, (a < s.I.toNat ∨ s.I.toNat + x.toNat < a) → t.mem.read a = s.mem.read a)
        ∧ t.I.toNat = s.I.toNat + x.toNat + 1
        ∧ SameRegs s t ∧ t.pc = s.pc + 2 ∧ SameScreen s t ∧ t.stack = s.stack ∧ Ticked s t ∧ Committed s t)

/-- R185: LoadReg loads V0 to VX from `I` up and advances `I` by `X + 1`. The count `X + 1` is conflict C9 as the spec
resolves it (log 32: DEDUCED). The decoding of FX65 rests on the pairing of the F group by order (decision D20 of the
spec, N7, log 24: DEDUCED). -/
def Obligations.LoadRegLoadsTheRegisters : Prop :=
  ∀ (x : Nibble) (s : State), decode (wordXK 0xF x 0x65) = some (.loadReg x)
    ∧ (s.I.toNat + x.toNat ≤ 0xFFF → ∃ t, exec (.loadReg x) s = .next t
        ∧ (∀ r : Nibble, r.toNat ≤ x.toNat → t.readV r = s.mem.read (s.I.toNat + r.toNat))
        ∧ (∀ r : Nibble, x.toNat < r.toNat → t.readV r = s.readV r)
        ∧ t.I.toNat = s.I.toNat + x.toNat + 1
        ∧ t.pc = s.pc + 2 ∧ SameStorage s t ∧ Ticked s t ∧ Committed s t)

/-- R164, R183 to R185 (decisions D9, D11 of the spec, log 9 and 14): a memory block that leaves the 4096 bytes faults
at the lowest address out of range, `max(I, 0x1000)`, and nothing is committed. -/
def Obligations.MemoryBlocksPastTheEndFault : Prop :=
  ∀ (x y n : Nibble) (s : State),
    (n ≠ 0 → 0xFFF < s.I.toNat + n.toNat - 1 →
        exec (.drawSprite x y n) s = .fault (.boundsFault .memRead (max s.I.toNat 0x1000) s.pc))
      ∧ (0xFFF < s.I.toNat + 2 →
        exec (.setBCD x) s = .fault (.boundsFault .memWrite (max s.I.toNat 0x1000) s.pc))
      ∧ (0xFFF < s.I.toNat + x.toNat →
        exec (.dumpReg x) s = .fault (.boundsFault .memWrite (max s.I.toNat 0x1000) s.pc)
        ∧ exec (.loadReg x) s = .fault (.boundsFault .memRead (max s.I.toNat 0x1000) s.pc))

/-- R184, R185 (d): a DumpReg, then `I` put back and a LoadReg with the same `X`, whatever happened to the registers
between, restores them. -/
def Obligations.LoadRegUndoesDumpReg : Prop :=
  ∀ (x : Nibble) (s t u w : State), exec (.dumpReg x) s = .next t → SameMemory t u → u.I = s.I →
    exec (.loadReg x) u = .next w → ∀ r : Nibble, r.toNat ≤ x.toNat → w.readV r = s.readV r

/-! ## Programs that modify or park themselves -/

/-- R53: the bytes a DumpReg stores over the next instruction are what the next step fetches. -/
def Obligations.StoresAreSeenByTheNextFetch : Prop :=
  ∀ (x : Nibble) (s t : State), s.pc.toNat ≤ 0xFFE → s.I = s.pc + 2 → x ≠ 0 → exec (.dumpReg x) s = .next t →
    t.fetch = .ok (wordOfBytes (s.readV 0) (s.readV 1))

/-- R246 (decision D19 of the spec, log 29), R121: from a parked state every step is a next state that is parked at
the same address, with nothing but the timers changed, which run down. -/
def Obligations.ParkedProgramStaysParked : Prop :=
  ∀ s : State, s.Parked → ∃ t, step s = .next t ∧ t.Parked ∧ t.pc = s.pc ∧ SameRegs s t ∧ t.I = s.I
    ∧ SameStorage s t ∧ Ticked s t ∧ t.faultOut = none ∧ t.faultSeen = s.faultSeen ∧ t.cfg = s.cfg
end

