-- ==== Sys2Proof/Laws/Decode.lean ====
section
/-! SUPPORT. The fields of the words the encoder builds, the words the fields rebuild, and the three masks of the
opcode map in terms of the fields. -/

namespace Sys2Proof

/-! ## Fields of an encoded word -/

@[simp] theorem fieldN0_wordA (n0 : Nibble) (nnn : Addr12) : fieldN0 (wordA n0 nnn) = n0 := by
  apply BitVec.eq_of_toNat_eq
  simp only [fieldN0, wordA, BitVec.extractLsb'_toNat, BitVec.toNat_ofNat, Nat.shiftRight_eq_div_pow]
  omega

@[simp] theorem fieldNNN_wordA (n0 : Nibble) (nnn : Addr12) : fieldNNN (wordA n0 nnn) = nnn := by
  apply BitVec.eq_of_toNat_eq
  simp only [fieldNNN, wordA, BitVec.extractLsb'_toNat, BitVec.toNat_ofNat, Nat.shiftRight_eq_div_pow]
  omega

@[simp] theorem fieldN0_wordXK (n0 x : Nibble) (kk : Byte) : fieldN0 (wordXK n0 x kk) = n0 := by
  apply BitVec.eq_of_toNat_eq
  simp only [fieldN0, wordXK, BitVec.extractLsb'_toNat, BitVec.toNat_ofNat, Nat.shiftRight_eq_div_pow]
  omega

@[simp] theorem fieldX_wordXK (n0 x : Nibble) (kk : Byte) : fieldX (wordXK n0 x kk) = x := by
  apply BitVec.eq_of_toNat_eq
  simp only [fieldX, wordXK, BitVec.extractLsb'_toNat, BitVec.toNat_ofNat, Nat.shiftRight_eq_div_pow]
  omega

@[simp] theorem fieldKK_wordXK (n0 x : Nibble) (kk : Byte) : fieldKK (wordXK n0 x kk) = kk := by
  apply BitVec.eq_of_toNat_eq
  simp only [fieldKK, wordXK, BitVec.extractLsb'_toNat, BitVec.toNat_ofNat, Nat.shiftRight_eq_div_pow]
  omega

@[simp] theorem fieldN0_wordXYN (n0 x y n3 : Nibble) : fieldN0 (wordXYN n0 x y n3) = n0 := by
  apply BitVec.eq_of_toNat_eq
  simp only [fieldN0, wordXYN, BitVec.extractLsb'_toNat, BitVec.toNat_ofNat, Nat.shiftRight_eq_div_pow]
  omega

@[simp] theorem fieldX_wordXYN (n0 x y n3 : Nibble) : fieldX (wordXYN n0 x y n3) = x := by
  apply BitVec.eq_of_toNat_eq
  simp only [fieldX, wordXYN, BitVec.extractLsb'_toNat, BitVec.toNat_ofNat, Nat.shiftRight_eq_div_pow]
  omega

@[simp] theorem fieldY_wordXYN (n0 x y n3 : Nibble) : fieldY (wordXYN n0 x y n3) = y := by
  apply BitVec.eq_of_toNat_eq
  simp only [fieldY, wordXYN, BitVec.extractLsb'_toNat, BitVec.toNat_ofNat, Nat.shiftRight_eq_div_pow]
  omega

@[simp] theorem fieldN_wordXYN (n0 x y n3 : Nibble) : fieldN (wordXYN n0 x y n3) = n3 := by
  apply BitVec.eq_of_toNat_eq
  simp only [fieldN, wordXYN, BitVec.extractLsb'_toNat, BitVec.toNat_ofNat, Nat.shiftRight_eq_div_pow]
  omega

/-! ## A word is its fields -/

theorem wordA_fields (w : Word) : wordA (fieldN0 w) (fieldNNN w) = w := by
  apply BitVec.eq_of_toNat_eq
  simp only [fieldN0, fieldNNN, wordA, BitVec.extractLsb'_toNat, BitVec.toNat_ofNat, Nat.shiftRight_eq_div_pow]
  omega

theorem wordXK_fields (w : Word) : wordXK (fieldN0 w) (fieldX w) (fieldKK w) = w := by
  apply BitVec.eq_of_toNat_eq
  simp only [fieldN0, fieldX, fieldKK, wordXK, BitVec.extractLsb'_toNat, BitVec.toNat_ofNat,
    Nat.shiftRight_eq_div_pow]
  omega

theorem wordXYN_fields (w : Word) : wordXYN (fieldN0 w) (fieldX w) (fieldY w) (fieldN w) = w := by
  apply BitVec.eq_of_toNat_eq
  simp only [fieldN0, fieldX, fieldY, fieldN, wordXYN, BitVec.extractLsb'_toNat, BitVec.toNat_ofNat,
    Nat.shiftRight_eq_div_pow]
  omega

/-- R41: the two bytes of a word in memory give the word back. -/
@[simp] theorem wordOfBytes_bytes (w : Word) : wordOfBytes (hiByte w) (loByte w) = w := by
  apply BitVec.eq_of_toNat_eq
  simp only [wordOfBytes, hiByte, loByte, BitVec.extractLsb'_toNat, BitVec.toNat_ofNat, Nat.shiftRight_eq_div_pow]
  omega

/-! ## The masks of the opcode map -/

theorem and_maskF000 (w : Word) : w &&& 0xF000#16 = (fieldN0 w).setWidth 16 <<< 12 := by
  apply BitVec.eq_of_getLsbD_eq
  intro i hi
  simp only [fieldN0, BitVec.getLsbD_and, BitVec.getLsbD_shiftLeft, BitVec.getLsbD_setWidth,
    BitVec.getLsbD_extractLsb']
  interval_cases i <;> simp

theorem and_maskF00F (w : Word) :
    w &&& 0xF00F#16 = ((fieldN0 w).setWidth 16 <<< 12) ||| (fieldN w).setWidth 16 := by
  apply BitVec.eq_of_getLsbD_eq
  intro i hi
  simp only [fieldN0, fieldN, BitVec.getLsbD_or, BitVec.getLsbD_and, BitVec.getLsbD_shiftLeft,
    BitVec.getLsbD_setWidth, BitVec.getLsbD_extractLsb']
  interval_cases i <;> simp

theorem and_maskF0FF (w : Word) :
    w &&& 0xF0FF#16 = ((fieldN0 w).setWidth 16 <<< 12) ||| (fieldKK w).setWidth 16 := by
  apply BitVec.eq_of_getLsbD_eq
  intro i hi
  simp only [fieldN0, fieldKK, BitVec.getLsbD_or, BitVec.getLsbD_and, BitVec.getLsbD_shiftLeft,
    BitVec.getLsbD_setWidth, BitVec.getLsbD_extractLsb']
  interval_cases i <;> simp

/-! ## Every answer of the decoder -/

/-- What a word that decodes is: the canonical word of its instruction, or one of the four forms with an ignored
nibble (R73). -/
theorem decode_cases {w : Word} {i : Instr} (h : decode w = some i) :
    w = encode i ∨ (∃ n, w = wordXK 0 n 0xE0 ∧ i = .clearDisplay) ∨ (∃ n, w = wordXK 0 n 0xEE ∧ i = .ret)
      ∨ (∃ x y n, w = wordXYN 5 x y n ∧ i = .skipEqReg x y) 
      ∨ (∃ x y n, w = wordXYN 9 x y n ∧ i = .skipNeReg x y) := by
  have hA := (wordA_fields w).symm
  have hK := (wordXK_fields w).symm
  have hY := (wordXYN_fields w).symm
  unfold decode at h
  split at h
  · next h0 =>
    unfold decodeGroup0 at h
    split at h
    · next h1 => cases h; rw [h0,h1] at hK; exact .inr (.inl ⟨_, hK, rfl⟩)
    · next h1 => cases h; rw [h0,h1] at hK; exact .inr (.inr (.inl ⟨_, hK, rfl⟩))
    · cases h
  · next h0 => cases h; rw [h0] at hA; exact .inl hA
  · next h0 => cases h; rw [h0] at hA; exact .inl hA
  · next h0 => cases h; rw [h0] at hK; exact .inl hK
  · next h0 => cases h; rw [h0] at hK; exact .inl hK
  · next h0 => cases h; rw [h0] at hY; exact .inr (.inr (.inr (.inl ⟨_, _, _, hY, rfl⟩)))
  · next h0 => cases h; rw [h0] at hK; exact .inl hK
  · next h0 => cases h; rw [h0] at hK; exact .inl hK
  · next h0 =>
    unfold decodeGroup8 at h
    split at h
    · next h1 => cases h; rw [h0,h1] at hY; exact .inl hY
    · next h1 => cases h; rw [h0,h1] at hY; exact .inl hY
    · next h1 => cases h; rw [h0,h1] at hY; exact .inl hY
    · next h1 => cases h; rw [h0,h1] at hY; exact .inl hY
    · next h1 => cases h; rw [h0,h1] at hY; exact .inl hY
    · next h1 => cases h; rw [h0,h1] at hY; exact .inl hY
    · next h1 => cases h; rw [h0,h1] at hY; exact .inl hY
    · next h1 => cases h; rw [h0,h1] at hY; exact .inl hY
    · next h1 => cases h; rw [h0,h1] at hY; exact .inl hY
    · cases h
  · next h0 => cases h; rw [h0] at hY; exact .inr (.inr (.inr (.inr ⟨_, _, _, hY, rfl⟩)))
  · next h0 => cases h; rw [h0] at hA; exact .inl hA
  · next h0 => cases h; rw [h0] at hA; exact .inl hA
  · next h0 => cases h; rw [h0] at hK; exact .inl hK
  · next h0 => cases h; rw [h0] at hY; exact .inl hY
  · next h0 =>
    unfold decodeGroupE at h
    split at h
    · next h1 => cases h; rw [h0,h1] at hK; exact .inl hK
    · next h1 => cases h; rw [h0,h1] at hK; exact .inl hK
    · cases h
  · next a0 a1 a2 a3 a4 a5 a6 a7 a8 a9 a10 a11 a12 a13 a14 =>
    have h0 : fieldN0 w = 15 := by
      clear hA hK hY h
      generalize fieldN0 w = q at *
      revert q
      decide
    unfold decodeGroupF at h
    split at h
    · next h1 => cases h; rw [h0,h1] at hK; exact .inl hK
    · next h1 => cases h; rw [h0,h1] at hK; exact .inl hK
    · next h1 => cases h; rw [h0,h1] at hK; exact .inl hK
    · next h1 => cases h; rw [h0,h1] at hK; exact .inl hK
    · next h1 => cases h; rw [h0,h1] at hK; exact .inl hK
    · next h1 => cases h; rw [h0,h1] at hK; exact .inl hK
    · next h1 => cases h; rw [h0,h1] at hK; exact .inl hK
    · next h1 => cases h; rw [h0,h1] at hK; exact .inl hK
    · next h1 => cases h; rw [h0,h1] at hK; exact .inl hK
    · cases h

end Sys2Proof
end

