-- ==== Sys2Proof/Laws/Memory.lean ====
section
/-! SUPPORT. The laws of memory: a byte reads as last written, every other byte is kept, and every operation keeps
the canonical form. -/

namespace Sys2Proof.Machine

/-- No entry of the list is for `a`. -/
abbrev Memory.absent (m : Memory) (a : Nat) : Prop := ∀ c ∈ m, c.1 ≠ a

theorem Memory.erase_absent (m : Memory) (a : Nat) : (m.erase a).absent a := by
  induction m with
  | nil => simp [Memory.erase]
  | cons c rest ih =>
    unfold Memory.erase
    split
    · exact ih
    · next hne =>
      intro d hd
      rcases List.mem_cons.mp hd with rfl | hd
      · exact hne
      · exact ih d hd

theorem Memory.read_absent {m : Memory} {a : Nat} (h : m.absent a) : m.read a = initialByte a := by
  induction m with
  | nil => rfl
  | cons c rest ih =>
    have hc : ¬a = c.1 := fun e => h c (by simp) e.symm
    rw [Memory.read, if_neg hc]
    exact ih fun d hd => h d (by simp [hd])

theorem Memory.read_erase_of_ne (m : Memory) {a b : Nat} (h : b ≠ a) : (m.erase a).read b = m.read b := by
  induction m with
  | nil => rfl
  | cons c rest ih =>
    unfold Memory.erase
    split
    · next he => rw [ih, Memory.read, if_neg (by rw [he]; exact h)]
    · rw [Memory.read, Memory.read, ih]

theorem Memory.read_insert {m : Memory} {a : Nat} (v : Byte) (h : m.absent a) (b : Nat) :
    (m.insert a v).read b = if b = a then v else m.read b := by
  induction m with
  | nil => rfl
  | cons c rest ih =>
    have hc : c.1 ≠ a := h c (by simp)
    unfold Memory.insert
    split
    · rfl
    · rw [Memory.read, ih fun d hd => h d (by simp [hd]), Memory.read]
      by_cases hb : b = c.1
      · rw [if_pos hb, if_neg (by rw [hb]; exact hc), if_pos hb]
      · rw [if_neg hb, if_neg hb]

/-- A byte reads as last written; every other byte reads as before. It needs no well-formedness. -/
@[simp] theorem Memory.read_write (m : Memory) (a b : Nat) (v : Byte) :
    (m.write a v).read b = if b = a then v else m.read b := by
  unfold Memory.write
  split
  · next hv =>
    split
    · next hb => rw [hb, Memory.read_absent (m.erase_absent a), hv]
    · next hb => exact m.read_erase_of_ne hb
  · rw [Memory.read_insert v (m.erase_absent a)]
    split
    · rfl
    · next hb => exact m.read_erase_of_ne hb

theorem Memory.mem_erase {m : Memory} {a : Nat} {c : Host.Cell} (h : c ∈ m.erase a) : c ∈ m := by
  induction m with
  | nil => exact h
  | cons d rest ih =>
    unfold Memory.erase at h
    split at h
    · exact List.mem_cons_of_mem _ (ih h)
    · rcases List.mem_cons.mp h with rfl | h
      · exact List.mem_cons_self
      · exact List.mem_cons_of_mem _ (ih h)

theorem Memory.mem_insert {m : Memory} {a : Nat} {v : Byte} {c : Host.Cell} (h : c ∈ m.insert a v) :
    c = (a, v) ∨ c ∈ m := by
  induction m with
  | nil => exact .inl (by simpa [Memory.insert] using h)
  | cons d rest ih =>
    unfold Memory.insert at h
    split at h
    · simpa using h
    · rcases List.mem_cons.mp h with rfl | h
      · exact .inr List.mem_cons_self
      · exact (ih h).imp_right (List.mem_cons_of_mem _)

theorem Memory.erase_wf {m : Memory} (a : Nat) (h : m.wf) : (m.erase a).wf := by
  refine ⟨?_, fun c hc => h.2 c (Memory.mem_erase hc)⟩
  have hs := h.1
  clear h
  induction m with
  | nil => exact hs
  | cons d rest ih =>
    rw [List.pairwise_cons] at hs
    unfold Memory.erase
    split
    · exact ih hs.2
    · exact List.pairwise_cons.mpr ⟨fun c hc => hs.1 c (Memory.mem_erase hc), ih hs.2⟩

theorem Memory.insert_wf {m : Memory} {a : Nat} {v : Byte} (h : m.wf) (habs : m.absent a)
    (ha : a < Config.memorySize) (hv : v ≠ initialByte a) : (m.insert a v).wf := by
  refine ⟨?_, ?_⟩
  · have hs := h.1
    clear h
    induction m with
    | nil => simp [Memory.insert]
    | cons d rest ih =>
      rw [List.pairwise_cons] at hs
      have hd : d.1 ≠ a := habs d (by simp)
      unfold Memory.insert
      split
      · next hlt =>
        refine List.pairwise_cons.mpr ⟨fun c hc => ?_, List.pairwise_cons.mpr hs⟩
        rcases List.mem_cons.mp hc with rfl | hc
        · exact hlt
        · exact lt_trans hlt (hs.1 c hc)
      · next hge =>
        refine List.pairwise_cons.mpr ⟨fun c hc => ?_, ih (fun c hc => habs c (by simp [hc])) hs.2⟩
        rcases Memory.mem_insert hc with rfl | hc
        · show d.1 < a
          have : ¬a < d.1 := hge
          omega
        · exact hs.1 c hc
  · intro c hc
    rcases Memory.mem_insert hc with rfl | hc
    · exact ⟨ha, hv⟩
    · exact h.2 c hc

/-- A write inside the 4096 bytes keeps the canonical form. -/
theorem Memory.write_wf {m : Memory} {a : Nat} (v : Byte) (h : m.wf) (ha : a < Config.memorySize) :
    (m.write a v).wf := by
  unfold Memory.write
  split
  · exact Memory.erase_wf a h
  · next hv => exact Memory.insert_wf (Memory.erase_wf a h) (m.erase_absent a) ha hv

/-- Loading a block keeps the canonical form. -/
theorem Memory.writeAll_wf (bytes : List Byte) : ∀ {m : Memory} {a : Nat}, m.wf →
    a + bytes.length ≤ Config.memorySize → (m.writeAll a bytes).wf := by
  induction bytes with
  | nil => intro m a h _; exact h
  | cons b rest ih =>
    intro m a h hle
    rw [List.length_cons] at hle
    exact ih (Memory.write_wf b h (by omega)) (by omega)

/-- What a loaded block reads as. -/
theorem Memory.read_writeAll (bytes : List Byte) : ∀ (m : Memory) (a b : Nat),
    (m.writeAll a bytes).read b =
      if h : a ≤ b ∧ b < a + bytes.length then bytes[b - a]'(by omega) else m.read b := by
  induction bytes with
  | nil =>
    intro m a b
    rw [dif_neg (by simp)]
    rfl
  | cons v rest ih =>
    intro m a b
    rw [Memory.writeAll, ih, Memory.read_write]
    by_cases hb : b = a
    · subst hb
      rw [dif_neg (by omega), if_pos rfl, dif_pos ⟨le_refl _, by simp⟩]
      simp
    · rw [if_neg hb]
      by_cases hin : a + 1 ≤ b ∧ b < a + 1 + rest.length
      · rw [dif_pos hin, dif_pos (by rw [List.length_cons]; omega)]
        have : b - a = (b - (a + 1)) + 1 := by omega
        simp [this]
      · rw [dif_neg hin, dif_neg (by rw [List.length_cons]; omega)]

/-- Two canonical memories that read alike are equal data. -/
theorem Memory.ext_of_read {m n : Memory} (hm : m.wf) (hn : n.wf) (h : ∀ a, m.read a = n.read a) : m = n := by
  have find : ∀ {m : Memory}, m.wf → ∀ c ∈ m, m.read c.1 = c.2 := by
    intro m hm
    induction m with
    | nil => intro c hc; simp at hc
    | cons d rest ih =>
      have hs := List.pairwise_cons.mp hm.1
      intro c hc
      rcases List.mem_cons.mp hc with rfl | hc
      · simp [Memory.read]
      · have : c.1 ≠ d.1 := Nat.ne_of_gt (hs.1 c hc)
        rw [Memory.read, if_neg this]
        exact ih ⟨hs.2, fun e he => hm.2 e (by simp [he])⟩ c hc
  have listed : ∀ {m : Memory}, m.wf → ∀ c, c ∈ m ↔ (m.read c.1 = c.2 ∧ c.2 ≠ initialByte c.1) := by
    intro m hm c
    refine ⟨fun hc => ⟨find hm c hc, (hm.2 c hc).2⟩, fun ⟨hr, hne⟩ => ?_⟩
    by_contra hnot
    by_cases hex : ∃ d ∈ m, d.1 = c.1
    · obtain ⟨d, hd, he⟩ := hex
      have h2 : d.2 = c.2 := by rw [← find hm d hd, he, hr]
      exact hnot (by rwa [← Prod.ext he h2])
    · push Not at hex
      exact hne (by rw [← hr, Memory.read_absent hex])
  have hsort : ∀ {m : Memory}, m.wf → m.Pairwise (fun c d => c.1 < d.1) := fun h => h.1
  have sub : ∀ c, c ∈ m ↔ c ∈ n := fun c => by rw [listed hm, listed hn, h]
  have nodup : ∀ {m : Memory}, m.wf → m.Nodup := fun h =>
    h.1.imp fun {c d} hlt (he : c = d) => Nat.lt_irrefl d.1 (by rw [he] at hlt; exact hlt)
  exact ((List.perm_ext_iff_of_nodup (nodup hm) (nodup hn)).mpr sub).eq_of_pairwise
    (fun a b _ _ h1 h2 => absurd (lt_trans h1 h2) (lt_irrefl _)) (hsort hm) (hsort hn)

/-- The reset memory is canonical. -/
theorem Memory.reset_wf : State.reset.mem.wf := by decide

end Sys2Proof.Machine
end

