-- ==== Sys2Proof/Laws/State.lean ====
section
/-! SUPPORT. One lemma per field per update of State, and what a register reads as after each. -/

namespace Sys2Proof.Machine

/-! ## `State.writeV` -/

@[simp] theorem State.writeV_v (s : State) (x : Nibble) (b : Byte) : (s.writeV x b).v = s.v.set x.toNat b x.isLt := rfl
@[simp] theorem State.writeV_I (s : State) (x : Nibble) (b : Byte) : (s.writeV x b).I = s.I := rfl
@[simp] theorem State.writeV_pc (s : State) (x : Nibble) (b : Byte) : (s.writeV x b).pc = s.pc := rfl
@[simp] theorem State.writeV_stack (s : State) (x : Nibble) (b : Byte) : (s.writeV x b).stack = s.stack := rfl
@[simp] theorem State.writeV_delay (s : State) (x : Nibble) (b : Byte) : (s.writeV x b).delay = s.delay := rfl
@[simp] theorem State.writeV_sound (s : State) (x : Nibble) (b : Byte) : (s.writeV x b).sound = s.sound := rfl
@[simp] theorem State.writeV_mem (s : State) (x : Nibble) (b : Byte) : (s.writeV x b).mem = s.mem := rfl
@[simp] theorem State.writeV_fb (s : State) (x : Nibble) (b : Byte) : (s.writeV x b).fb = s.fb := rfl
@[simp] theorem State.writeV_cfg (s : State) (x : Nibble) (b : Byte) : (s.writeV x b).cfg = s.cfg := rfl
@[simp] theorem State.writeV_keys (s : State) (x : Nibble) (b : Byte) : (s.writeV x b).keys = s.keys := rfl
@[simp] theorem State.writeV_rnd (s : State) (x : Nibble) (b : Byte) : (s.writeV x b).rnd = s.rnd := rfl
@[simp] theorem State.writeV_inputIx (s : State) (x : Nibble) (b : Byte) : (s.writeV x b).inputIx = s.inputIx := rfl
@[simp] theorem State.writeV_faultOut (s : State) (x : Nibble) (b : Byte) : (s.writeV x b).faultOut = s.faultOut := rfl
@[simp] theorem State.writeV_faultSeen (s : State) (x : Nibble) (b : Byte) : (s.writeV x b).faultSeen = s.faultSeen := rfl

/-! ## `State.setI` -/

@[simp] theorem State.setI_v (s : State) (a : Word) : (s.setI a).v = s.v := rfl
@[simp] theorem State.setI_I (s : State) (a : Word) : (s.setI a).I = a := rfl
@[simp] theorem State.setI_pc (s : State) (a : Word) : (s.setI a).pc = s.pc := rfl
@[simp] theorem State.setI_stack (s : State) (a : Word) : (s.setI a).stack = s.stack := rfl
@[simp] theorem State.setI_delay (s : State) (a : Word) : (s.setI a).delay = s.delay := rfl
@[simp] theorem State.setI_sound (s : State) (a : Word) : (s.setI a).sound = s.sound := rfl
@[simp] theorem State.setI_mem (s : State) (a : Word) : (s.setI a).mem = s.mem := rfl
@[simp] theorem State.setI_fb (s : State) (a : Word) : (s.setI a).fb = s.fb := rfl
@[simp] theorem State.setI_cfg (s : State) (a : Word) : (s.setI a).cfg = s.cfg := rfl
@[simp] theorem State.setI_keys (s : State) (a : Word) : (s.setI a).keys = s.keys := rfl
@[simp] theorem State.setI_rnd (s : State) (a : Word) : (s.setI a).rnd = s.rnd := rfl
@[simp] theorem State.setI_inputIx (s : State) (a : Word) : (s.setI a).inputIx = s.inputIx := rfl
@[simp] theorem State.setI_faultOut (s : State) (a : Word) : (s.setI a).faultOut = s.faultOut := rfl
@[simp] theorem State.setI_faultSeen (s : State) (a : Word) : (s.setI a).faultSeen = s.faultSeen := rfl

/-! ## `State.setStack` -/

@[simp] theorem State.setStack_v (s : State) (st : List Word) : (s.setStack st).v = s.v := rfl
@[simp] theorem State.setStack_I (s : State) (st : List Word) : (s.setStack st).I = s.I := rfl
@[simp] theorem State.setStack_pc (s : State) (st : List Word) : (s.setStack st).pc = s.pc := rfl
@[simp] theorem State.setStack_stack (s : State) (st : List Word) : (s.setStack st).stack = st := rfl
@[simp] theorem State.setStack_delay (s : State) (st : List Word) : (s.setStack st).delay = s.delay := rfl
@[simp] theorem State.setStack_sound (s : State) (st : List Word) : (s.setStack st).sound = s.sound := rfl
@[simp] theorem State.setStack_mem (s : State) (st : List Word) : (s.setStack st).mem = s.mem := rfl
@[simp] theorem State.setStack_fb (s : State) (st : List Word) : (s.setStack st).fb = s.fb := rfl
@[simp] theorem State.setStack_cfg (s : State) (st : List Word) : (s.setStack st).cfg = s.cfg := rfl
@[simp] theorem State.setStack_keys (s : State) (st : List Word) : (s.setStack st).keys = s.keys := rfl
@[simp] theorem State.setStack_rnd (s : State) (st : List Word) : (s.setStack st).rnd = s.rnd := rfl
@[simp] theorem State.setStack_inputIx (s : State) (st : List Word) : (s.setStack st).inputIx = s.inputIx := rfl
@[simp] theorem State.setStack_faultOut (s : State) (st : List Word) : (s.setStack st).faultOut = s.faultOut := rfl
@[simp] theorem State.setStack_faultSeen (s : State) (st : List Word) : (s.setStack st).faultSeen = s.faultSeen := rfl

/-! ## `State.setDelay` -/

@[simp] theorem State.setDelay_v (s : State) (b : Byte) : (s.setDelay b).v = s.v := rfl
@[simp] theorem State.setDelay_I (s : State) (b : Byte) : (s.setDelay b).I = s.I := rfl
@[simp] theorem State.setDelay_pc (s : State) (b : Byte) : (s.setDelay b).pc = s.pc := rfl
@[simp] theorem State.setDelay_stack (s : State) (b : Byte) : (s.setDelay b).stack = s.stack := rfl
@[simp] theorem State.setDelay_delay (s : State) (b : Byte) : (s.setDelay b).delay = b := rfl
@[simp] theorem State.setDelay_sound (s : State) (b : Byte) : (s.setDelay b).sound = s.sound := rfl
@[simp] theorem State.setDelay_mem (s : State) (b : Byte) : (s.setDelay b).mem = s.mem := rfl
@[simp] theorem State.setDelay_fb (s : State) (b : Byte) : (s.setDelay b).fb = s.fb := rfl
@[simp] theorem State.setDelay_cfg (s : State) (b : Byte) : (s.setDelay b).cfg = s.cfg := rfl
@[simp] theorem State.setDelay_keys (s : State) (b : Byte) : (s.setDelay b).keys = s.keys := rfl
@[simp] theorem State.setDelay_rnd (s : State) (b : Byte) : (s.setDelay b).rnd = s.rnd := rfl
@[simp] theorem State.setDelay_inputIx (s : State) (b : Byte) : (s.setDelay b).inputIx = s.inputIx := rfl
@[simp] theorem State.setDelay_faultOut (s : State) (b : Byte) : (s.setDelay b).faultOut = s.faultOut := rfl
@[simp] theorem State.setDelay_faultSeen (s : State) (b : Byte) : (s.setDelay b).faultSeen = s.faultSeen := rfl

/-! ## `State.setSound` -/

@[simp] theorem State.setSound_v (s : State) (b : Byte) : (s.setSound b).v = s.v := rfl
@[simp] theorem State.setSound_I (s : State) (b : Byte) : (s.setSound b).I = s.I := rfl
@[simp] theorem State.setSound_pc (s : State) (b : Byte) : (s.setSound b).pc = s.pc := rfl
@[simp] theorem State.setSound_stack (s : State) (b : Byte) : (s.setSound b).stack = s.stack := rfl
@[simp] theorem State.setSound_delay (s : State) (b : Byte) : (s.setSound b).delay = s.delay := rfl
@[simp] theorem State.setSound_sound (s : State) (b : Byte) : (s.setSound b).sound = b := rfl
@[simp] theorem State.setSound_mem (s : State) (b : Byte) : (s.setSound b).mem = s.mem := rfl
@[simp] theorem State.setSound_fb (s : State) (b : Byte) : (s.setSound b).fb = s.fb := rfl
@[simp] theorem State.setSound_cfg (s : State) (b : Byte) : (s.setSound b).cfg = s.cfg := rfl
@[simp] theorem State.setSound_keys (s : State) (b : Byte) : (s.setSound b).keys = s.keys := rfl
@[simp] theorem State.setSound_rnd (s : State) (b : Byte) : (s.setSound b).rnd = s.rnd := rfl
@[simp] theorem State.setSound_inputIx (s : State) (b : Byte) : (s.setSound b).inputIx = s.inputIx := rfl
@[simp] theorem State.setSound_faultOut (s : State) (b : Byte) : (s.setSound b).faultOut = s.faultOut := rfl
@[simp] theorem State.setSound_faultSeen (s : State) (b : Byte) : (s.setSound b).faultSeen = s.faultSeen := rfl

/-! ## `State.setMem` -/

@[simp] theorem State.setMem_v (s : State) (m : Memory) : (s.setMem m).v = s.v := rfl
@[simp] theorem State.setMem_I (s : State) (m : Memory) : (s.setMem m).I = s.I := rfl
@[simp] theorem State.setMem_pc (s : State) (m : Memory) : (s.setMem m).pc = s.pc := rfl
@[simp] theorem State.setMem_stack (s : State) (m : Memory) : (s.setMem m).stack = s.stack := rfl
@[simp] theorem State.setMem_delay (s : State) (m : Memory) : (s.setMem m).delay = s.delay := rfl
@[simp] theorem State.setMem_sound (s : State) (m : Memory) : (s.setMem m).sound = s.sound := rfl
@[simp] theorem State.setMem_mem (s : State) (m : Memory) : (s.setMem m).mem = m := rfl
@[simp] theorem State.setMem_fb (s : State) (m : Memory) : (s.setMem m).fb = s.fb := rfl
@[simp] theorem State.setMem_cfg (s : State) (m : Memory) : (s.setMem m).cfg = s.cfg := rfl
@[simp] theorem State.setMem_keys (s : State) (m : Memory) : (s.setMem m).keys = s.keys := rfl
@[simp] theorem State.setMem_rnd (s : State) (m : Memory) : (s.setMem m).rnd = s.rnd := rfl
@[simp] theorem State.setMem_inputIx (s : State) (m : Memory) : (s.setMem m).inputIx = s.inputIx := rfl
@[simp] theorem State.setMem_faultOut (s : State) (m : Memory) : (s.setMem m).faultOut = s.faultOut := rfl
@[simp] theorem State.setMem_faultSeen (s : State) (m : Memory) : (s.setMem m).faultSeen = s.faultSeen := rfl

/-! ## `State.setFb` -/

@[simp] theorem State.setFb_v (s : State) (f : FrameBuffer) : (s.setFb f).v = s.v := rfl
@[simp] theorem State.setFb_I (s : State) (f : FrameBuffer) : (s.setFb f).I = s.I := rfl
@[simp] theorem State.setFb_pc (s : State) (f : FrameBuffer) : (s.setFb f).pc = s.pc := rfl
@[simp] theorem State.setFb_stack (s : State) (f : FrameBuffer) : (s.setFb f).stack = s.stack := rfl
@[simp] theorem State.setFb_delay (s : State) (f : FrameBuffer) : (s.setFb f).delay = s.delay := rfl
@[simp] theorem State.setFb_sound (s : State) (f : FrameBuffer) : (s.setFb f).sound = s.sound := rfl
@[simp] theorem State.setFb_mem (s : State) (f : FrameBuffer) : (s.setFb f).mem = s.mem := rfl
@[simp] theorem State.setFb_fb (s : State) (f : FrameBuffer) : (s.setFb f).fb = f := rfl
@[simp] theorem State.setFb_cfg (s : State) (f : FrameBuffer) : (s.setFb f).cfg = s.cfg := rfl
@[simp] theorem State.setFb_keys (s : State) (f : FrameBuffer) : (s.setFb f).keys = s.keys := rfl
@[simp] theorem State.setFb_rnd (s : State) (f : FrameBuffer) : (s.setFb f).rnd = s.rnd := rfl
@[simp] theorem State.setFb_inputIx (s : State) (f : FrameBuffer) : (s.setFb f).inputIx = s.inputIx := rfl
@[simp] theorem State.setFb_faultOut (s : State) (f : FrameBuffer) : (s.setFb f).faultOut = s.faultOut := rfl
@[simp] theorem State.setFb_faultSeen (s : State) (f : FrameBuffer) : (s.setFb f).faultSeen = s.faultSeen := rfl

/-! ## `State.tickTimers` -/

@[simp] theorem State.tickTimers_v (s : State) : (s.tickTimers).v = s.v := rfl
@[simp] theorem State.tickTimers_I (s : State) : (s.tickTimers).I = s.I := rfl
@[simp] theorem State.tickTimers_pc (s : State) : (s.tickTimers).pc = s.pc := rfl
@[simp] theorem State.tickTimers_stack (s : State) : (s.tickTimers).stack = s.stack := rfl
@[simp] theorem State.tickTimers_delay (s : State) : (s.tickTimers).delay = tickDown s.delay := rfl
@[simp] theorem State.tickTimers_sound (s : State) : (s.tickTimers).sound = tickDown s.sound := rfl
@[simp] theorem State.tickTimers_mem (s : State) : (s.tickTimers).mem = s.mem := rfl
@[simp] theorem State.tickTimers_fb (s : State) : (s.tickTimers).fb = s.fb := rfl
@[simp] theorem State.tickTimers_cfg (s : State) : (s.tickTimers).cfg = s.cfg := rfl
@[simp] theorem State.tickTimers_keys (s : State) : (s.tickTimers).keys = s.keys := rfl
@[simp] theorem State.tickTimers_rnd (s : State) : (s.tickTimers).rnd = s.rnd := rfl
@[simp] theorem State.tickTimers_inputIx (s : State) : (s.tickTimers).inputIx = s.inputIx := rfl
@[simp] theorem State.tickTimers_faultOut (s : State) : (s.tickTimers).faultOut = s.faultOut := rfl
@[simp] theorem State.tickTimers_faultSeen (s : State) : (s.tickTimers).faultSeen = s.faultSeen := rfl

/-! ## `State.retire` -/

@[simp] theorem State.retire_v (s : State) (a : Word) : (s.retire a).v = s.v := rfl
@[simp] theorem State.retire_I (s : State) (a : Word) : (s.retire a).I = s.I := rfl
@[simp] theorem State.retire_pc (s : State) (a : Word) : (s.retire a).pc = a := rfl
@[simp] theorem State.retire_stack (s : State) (a : Word) : (s.retire a).stack = s.stack := rfl
@[simp] theorem State.retire_delay (s : State) (a : Word) : (s.retire a).delay = s.delay := rfl
@[simp] theorem State.retire_sound (s : State) (a : Word) : (s.retire a).sound = s.sound := rfl
@[simp] theorem State.retire_mem (s : State) (a : Word) : (s.retire a).mem = s.mem := rfl
@[simp] theorem State.retire_fb (s : State) (a : Word) : (s.retire a).fb = s.fb := rfl
@[simp] theorem State.retire_cfg (s : State) (a : Word) : (s.retire a).cfg = s.cfg := rfl
@[simp] theorem State.retire_keys (s : State) (a : Word) : (s.retire a).keys = s.keys := rfl
@[simp] theorem State.retire_rnd (s : State) (a : Word) : (s.retire a).rnd = s.rnd := rfl
@[simp] theorem State.retire_inputIx (s : State) (a : Word) : (s.retire a).inputIx = s.inputIx := rfl
@[simp] theorem State.retire_faultOut (s : State) (a : Word) : (s.retire a).faultOut = none := rfl
@[simp] theorem State.retire_faultSeen (s : State) (a : Word) : (s.retire a).faultSeen = s.faultSeen := rfl

/-! ## `State.nextInputs` -/

@[simp] theorem State.nextInputs_v (s : State) : (s.nextInputs).v = s.v := rfl
@[simp] theorem State.nextInputs_I (s : State) : (s.nextInputs).I = s.I := rfl
@[simp] theorem State.nextInputs_pc (s : State) : (s.nextInputs).pc = s.pc := rfl
@[simp] theorem State.nextInputs_stack (s : State) : (s.nextInputs).stack = s.stack := rfl
@[simp] theorem State.nextInputs_delay (s : State) : (s.nextInputs).delay = s.delay := rfl
@[simp] theorem State.nextInputs_sound (s : State) : (s.nextInputs).sound = s.sound := rfl
@[simp] theorem State.nextInputs_mem (s : State) : (s.nextInputs).mem = s.mem := rfl
@[simp] theorem State.nextInputs_fb (s : State) : (s.nextInputs).fb = s.fb := rfl
@[simp] theorem State.nextInputs_cfg (s : State) : (s.nextInputs).cfg = s.cfg := rfl
@[simp] theorem State.nextInputs_keys (s : State) : (s.nextInputs).keys = Config.keysAt (s.inputIx + 1) := rfl
@[simp] theorem State.nextInputs_rnd (s : State) : (s.nextInputs).rnd = Config.rndAt (s.inputIx + 1) := rfl
@[simp] theorem State.nextInputs_inputIx (s : State) : (s.nextInputs).inputIx = s.inputIx + 1 := rfl
@[simp] theorem State.nextInputs_faultOut (s : State) : (s.nextInputs).faultOut = s.faultOut := rfl
@[simp] theorem State.nextInputs_faultSeen (s : State) : (s.nextInputs).faultSeen = s.faultSeen := rfl

/-! ## `State.present` -/

@[simp] theorem State.present_v (s : State) (k : BitVec 16) (r : Byte) : (s.present k r).v = s.v := rfl
@[simp] theorem State.present_I (s : State) (k : BitVec 16) (r : Byte) : (s.present k r).I = s.I := rfl
@[simp] theorem State.present_pc (s : State) (k : BitVec 16) (r : Byte) : (s.present k r).pc = s.pc := rfl
@[simp] theorem State.present_stack (s : State) (k : BitVec 16) (r : Byte) : (s.present k r).stack = s.stack := rfl
@[simp] theorem State.present_delay (s : State) (k : BitVec 16) (r : Byte) : (s.present k r).delay = s.delay := rfl
@[simp] theorem State.present_sound (s : State) (k : BitVec 16) (r : Byte) : (s.present k r).sound = s.sound := rfl
@[simp] theorem State.present_mem (s : State) (k : BitVec 16) (r : Byte) : (s.present k r).mem = s.mem := rfl
@[simp] theorem State.present_fb (s : State) (k : BitVec 16) (r : Byte) : (s.present k r).fb = s.fb := rfl
@[simp] theorem State.present_cfg (s : State) (k : BitVec 16) (r : Byte) : (s.present k r).cfg = s.cfg := rfl
@[simp] theorem State.present_keys (s : State) (k : BitVec 16) (r : Byte) : (s.present k r).keys = k := rfl
@[simp] theorem State.present_rnd (s : State) (k : BitVec 16) (r : Byte) : (s.present k r).rnd = r := rfl
@[simp] theorem State.present_inputIx (s : State) (k : BitVec 16) (r : Byte) : (s.present k r).inputIx = s.inputIx := rfl
@[simp] theorem State.present_faultOut (s : State) (k : BitVec 16) (r : Byte) : (s.present k r).faultOut = s.faultOut := rfl
@[simp] theorem State.present_faultSeen (s : State) (k : BitVec 16) (r : Byte) : (s.present k r).faultSeen = s.faultSeen := rfl

/-! ## `State.writeVs` keeps every field but the registers -/

@[simp] theorem State.writeVs_I (bs : List Byte) : ∀ (s : State) (i : Nat), (s.writeVs i bs).I = s.I := by
  induction bs with
  | nil => intro s i; rfl
  | cons b rest ih => intro s i; simp [State.writeVs, ih]
@[simp] theorem State.writeVs_pc (bs : List Byte) : ∀ (s : State) (i : Nat), (s.writeVs i bs).pc = s.pc := by
  induction bs with
  | nil => intro s i; rfl
  | cons b rest ih => intro s i; simp [State.writeVs, ih]
@[simp] theorem State.writeVs_stack (bs : List Byte) : ∀ (s : State) (i : Nat), (s.writeVs i bs).stack = s.stack := by
  induction bs with
  | nil => intro s i; rfl
  | cons b rest ih => intro s i; simp [State.writeVs, ih]
@[simp] theorem State.writeVs_delay (bs : List Byte) : ∀ (s : State) (i : Nat), (s.writeVs i bs).delay = s.delay := by
  induction bs with
  | nil => intro s i; rfl
  | cons b rest ih => intro s i; simp [State.writeVs, ih]
@[simp] theorem State.writeVs_sound (bs : List Byte) : ∀ (s : State) (i : Nat), (s.writeVs i bs).sound = s.sound := by
  induction bs with
  | nil => intro s i; rfl
  | cons b rest ih => intro s i; simp [State.writeVs, ih]
@[simp] theorem State.writeVs_mem (bs : List Byte) : ∀ (s : State) (i : Nat), (s.writeVs i bs).mem = s.mem := by
  induction bs with
  | nil => intro s i; rfl
  | cons b rest ih => intro s i; simp [State.writeVs, ih]
@[simp] theorem State.writeVs_fb (bs : List Byte) : ∀ (s : State) (i : Nat), (s.writeVs i bs).fb = s.fb := by
  induction bs with
  | nil => intro s i; rfl
  | cons b rest ih => intro s i; simp [State.writeVs, ih]
@[simp] theorem State.writeVs_cfg (bs : List Byte) : ∀ (s : State) (i : Nat), (s.writeVs i bs).cfg = s.cfg := by
  induction bs with
  | nil => intro s i; rfl
  | cons b rest ih => intro s i; simp [State.writeVs, ih]
@[simp] theorem State.writeVs_keys (bs : List Byte) : ∀ (s : State) (i : Nat), (s.writeVs i bs).keys = s.keys := by
  induction bs with
  | nil => intro s i; rfl
  | cons b rest ih => intro s i; simp [State.writeVs, ih]
@[simp] theorem State.writeVs_rnd (bs : List Byte) : ∀ (s : State) (i : Nat), (s.writeVs i bs).rnd = s.rnd := by
  induction bs with
  | nil => intro s i; rfl
  | cons b rest ih => intro s i; simp [State.writeVs, ih]
@[simp] theorem State.writeVs_inputIx (bs : List Byte) : ∀ (s : State) (i : Nat), (s.writeVs i bs).inputIx = s.inputIx := by
  induction bs with
  | nil => intro s i; rfl
  | cons b rest ih => intro s i; simp [State.writeVs, ih]
@[simp] theorem State.writeVs_faultOut (bs : List Byte) : ∀ (s : State) (i : Nat), (s.writeVs i bs).faultOut = s.faultOut := by
  induction bs with
  | nil => intro s i; rfl
  | cons b rest ih => intro s i; simp [State.writeVs, ih]
@[simp] theorem State.writeVs_faultSeen (bs : List Byte) : ∀ (s : State) (i : Nat), (s.writeVs i bs).faultSeen = s.faultSeen := by
  induction bs with
  | nil => intro s i; rfl
  | cons b rest ih => intro s i; simp [State.writeVs, ih]

/-! ## `State.writeWithFlag` -/

@[simp] theorem State.writeWithFlag_I (s : State) (x : Nibble) (r : Byte) (c : Bool) : (s.writeWithFlag x r c).I = s.I := rfl
@[simp] theorem State.writeWithFlag_pc (s : State) (x : Nibble) (r : Byte) (c : Bool) : (s.writeWithFlag x r c).pc = s.pc := rfl
@[simp] theorem State.writeWithFlag_stack (s : State) (x : Nibble) (r : Byte) (c : Bool) : (s.writeWithFlag x r c).stack = s.stack := rfl
@[simp] theorem State.writeWithFlag_delay (s : State) (x : Nibble) (r : Byte) (c : Bool) : (s.writeWithFlag x r c).delay = s.delay := rfl
@[simp] theorem State.writeWithFlag_sound (s : State) (x : Nibble) (r : Byte) (c : Bool) : (s.writeWithFlag x r c).sound = s.sound := rfl
@[simp] theorem State.writeWithFlag_mem (s : State) (x : Nibble) (r : Byte) (c : Bool) : (s.writeWithFlag x r c).mem = s.mem := rfl
@[simp] theorem State.writeWithFlag_fb (s : State) (x : Nibble) (r : Byte) (c : Bool) : (s.writeWithFlag x r c).fb = s.fb := rfl
@[simp] theorem State.writeWithFlag_cfg (s : State) (x : Nibble) (r : Byte) (c : Bool) : (s.writeWithFlag x r c).cfg = s.cfg := rfl
@[simp] theorem State.writeWithFlag_keys (s : State) (x : Nibble) (r : Byte) (c : Bool) : (s.writeWithFlag x r c).keys = s.keys := rfl
@[simp] theorem State.writeWithFlag_rnd (s : State) (x : Nibble) (r : Byte) (c : Bool) : (s.writeWithFlag x r c).rnd = s.rnd := rfl
@[simp] theorem State.writeWithFlag_inputIx (s : State) (x : Nibble) (r : Byte) (c : Bool) : (s.writeWithFlag x r c).inputIx = s.inputIx := rfl
@[simp] theorem State.writeWithFlag_faultOut (s : State) (x : Nibble) (r : Byte) (c : Bool) : (s.writeWithFlag x r c).faultOut = s.faultOut := rfl
@[simp] theorem State.writeWithFlag_faultSeen (s : State) (x : Nibble) (r : Byte) (c : Bool) : (s.writeWithFlag x r c).faultSeen = s.faultSeen := rfl

/-! ## Reading a register after an update -/

/-- A register read sees the last write to that register. -/
@[simp] theorem State.readV_writeV (s : State) (x y : Nibble) (b : Byte) :
    (s.writeV x b).readV y = if y = x then b else s.readV y := by
  simp only [State.writeV, State.readV, Vector.getElem_set, BitVec.toNat_inj, eq_comm]

/-- Two states with the same register file read alike. -/
theorem State.readV_congr (s t : State) (h : t.v = s.v) (x : Nibble) : t.readV x = s.readV x := by
  simp [State.readV, h]

@[simp] theorem State.readV_setI (s : State) (a : Word) (y : Nibble) : (s.setI a).readV y = s.readV y := rfl
@[simp] theorem State.readV_setStack (s : State) (st : List Word) (y : Nibble) : (s.setStack st).readV y = s.readV y := rfl
@[simp] theorem State.readV_setDelay (s : State) (b : Byte) (y : Nibble) : (s.setDelay b).readV y = s.readV y := rfl
@[simp] theorem State.readV_setSound (s : State) (b : Byte) (y : Nibble) : (s.setSound b).readV y = s.readV y := rfl
@[simp] theorem State.readV_setMem (s : State) (m : Memory) (y : Nibble) : (s.setMem m).readV y = s.readV y := rfl
@[simp] theorem State.readV_setFb (s : State) (f : FrameBuffer) (y : Nibble) : (s.setFb f).readV y = s.readV y := rfl
@[simp] theorem State.readV_tickTimers (s : State) (y : Nibble) : (s.tickTimers).readV y = s.readV y := rfl
@[simp] theorem State.readV_retire (s : State) (a : Word) (y : Nibble) : (s.retire a).readV y = s.readV y := rfl
@[simp] theorem State.readV_nextInputs (s : State) (y : Nibble) : (s.nextInputs).readV y = s.readV y := rfl
@[simp] theorem State.readV_present (s : State) (k : BitVec 16) (r : Byte) (y : Nibble) : (s.present k r).readV y = s.readV y := rfl

/-- R110: the flag is written last, so VF reads as the flag whatever the destination. -/
@[simp] theorem State.readV_writeWithFlag (s : State) (x y : Nibble) (r : Byte) (c : Bool) :
    (s.writeWithFlag x r c).readV y = if y = vf then flagByte c else if y = x then r else s.readV y := by
  simp [State.writeWithFlag]

/-- The block write of LoadReg: register `r` takes the byte of its place in the block. -/
theorem State.readV_writeVs (bs : List Byte) : ∀ (s : State) (i : Nat) (r : Nibble), i + bs.length ≤ 16 →
    (s.writeVs i bs).readV r =
      if h : i ≤ r.toNat ∧ r.toNat < i + bs.length then bs[r.toNat - i]'(by omega) else s.readV r := by
  induction bs with
  | nil => intro s i r _; simp [State.writeVs]
  | cons b rest ih =>
    intro s i r hle
    simp only [List.length_cons] at hle
    have hr : r = BitVec.ofNat 4 i ↔ r.toNat = i := by
      rw [← BitVec.toNat_inj, BitVec.toNat_ofNat, Nat.mod_eq_of_lt (by omega)]
    rw [State.writeVs, ih _ _ _ (by omega), State.readV_writeV]
    by_cases he : r.toNat = i
    · have : r = BitVec.ofNat 4 i := hr.mpr he
      rw [dif_neg (by omega), if_pos this, dif_pos ⟨he.ge, by simp [he]⟩]
      simp [he]
    · rw [if_neg (mt hr.mp he)]
      by_cases hin : i + 1 ≤ r.toNat ∧ r.toNat < i + 1 + rest.length
      · rw [dif_pos hin, dif_pos (by simp only [List.length_cons]; omega)]
        have : r.toNat - i = (r.toNat - (i + 1)) + 1 := by omega
        simp [this]
      · rw [dif_neg hin, dif_neg (by simp only [List.length_cons]; omega)]

/-- `firstVs` lists the registers in order. -/
theorem State.firstVs_getElem (s : State) (n : Nat) (r : Nibble) (h : r.toNat < (s.firstVs n).length) :
    (s.firstVs n)[r.toNat] = s.readV r := by
  simp [State.firstVs, State.readV]

@[simp] theorem State.firstVs_length (s : State) (n : Nat) (h : n ≤ 16) : (s.firstVs n).length = n := by
  simp [State.firstVs, h]

/-- The timer tick in numbers: minus 1, floored at 0 (R104). -/
@[simp] theorem tickDown_toNat (b : Byte) : (tickDown b).toNat = b.toNat - 1 := by
  unfold tickDown
  split
  · next h => simp [h]
  · next h =>
    have : b.toNat ≠ 0 := fun h0 => h (BitVec.eq_of_toNat_eq (by simpa using h0))
    rw [BitVec.toNat_sub]
    have := b.isLt
    simp
    omega

end Sys2Proof.Machine
end

