-- ==== Sys2Proof/Laws/HostPort.lean ====
section
/-! SUPPORT. What the host's operations can do, said once: the reset port and the memory it loads, and the tick of a
host that goes on. -/

namespace Sys2Proof.Machine

/-- The reset port answers a next state for legal arguments only, and which. -/
theorem State.hostReset_next {s t : State} {a : ResetArgs} :
    s.hostReset a = .next t ↔
      programWf a.program ∧ fontWf a.font ∧ a.cfg.wf ∧ t = State.nextInputs { a.state with inputIx := s.inputIx } := by
  unfold State.hostReset
  constructor
  · intro h
    split at h
    · next hp =>
      split at h
      · next hc => cases h; exact ⟨hp, hc.1, hc.2, rfl⟩
      · cases h
    · cases h
  · rintro ⟨hp, hf, hc, rfl⟩
    rw [if_pos hp, if_pos ⟨hf, hc⟩]

/-- What a byte of the loaded memory reads as: the program over the font over the reset contents. -/
theorem ResetArgs.memory_read (a : ResetArgs) (b : Nat) :
    a.memory.read b =
      if h : 0x200 ≤ b ∧ b < 0x200 + a.program.length then a.program[b - 0x200]'(by omega)
      else if h : b < a.font.length then a.font[b] else initialByte b := by
  rw [ResetArgs.memory, Memory.read_writeAll, Memory.read_writeAll]
  simp [Config.programBase, Memory.read]

/-- Above the font the reset contents are 0 (decision D13 of the spec). -/
theorem initialByte_above_font {b : Nat} (h : 80 ≤ b) : initialByte b = 0 := by
  show defaultFont.getD b 0 = 0
  rw [List.getD_eq_default]
  exact h

theorem State.tick_next {s t : State} (h : step s = .next t) : s.tick = t := by rw [State.tick, h]

theorem State.tick_fault {s : State} {f : Fault} (h : step s = .fault f) :
    s.tick = State.nextInputs { s with faultOut := some f, faultSeen := true } := by rw [State.tick, h]

end Sys2Proof.Machine
end

