-- ==== Sys2Proof/Laws/Ops.lean ====
section
/-! SUPPORT. Everything each shared operation can do, said once: commit, the memory blocks, the stack, the key
index, the fetch and the end of a step. -/

namespace Sys2Proof.Machine

/-! ## commit (R108) -/

theorem commit_next {α : Type} {r : Except Fault α} {k : α → State} {t : State} :
    commit r k = .next t ↔ ∃ a, r = .ok a ∧ k a = t := by
  cases r with
  | error f => simp [commit]
  | ok a => simp [commit]

theorem commit_fault {α : Type} {r : Except Fault α} {k : α → State} {f : Fault} :
    commit r k = .fault f ↔ r = .error f := by
  cases r with
  | error g => simp [commit]
  | ok a => simp [commit]

theorem commit_not_refused {α : Type} (r : Except Fault α) (k : α → State) (q : Refusal) :
    commit r k ≠ .refused q := by
  cases r with
  | error g => simp [commit]
  | ok a => simp [commit]

/-! ## The memory blocks (R43, R44, R46, R56) -/

/-- The lowest address out of range does not change when an access inside is taken off the front (R202). -/
theorem lowestFault_inside {base : Nat} (h : base < Config.memorySize) :
    max (base + 1) 0x1000 = max base 0x1000 := by
  simp only [Config.memorySize] at h
  omega

/-- An access outside is itself the lowest address out of range (R202). -/
theorem lowestFault_outside {base : Nat} (h : ¬base < Config.memorySize) : max base 0x1000 = base := by
  simp only [Config.memorySize] at h
  omega

/-- A block read inside the 4096 bytes answers the bytes in order. -/
theorem State.memReadBlock_ok (s : State) (n : Nat) : ∀ base, base + n ≤ Config.memorySize →
    s.memReadBlock base n = .ok ((List.range n).map fun k => s.mem.read (base + k)) := by
  induction n with
  | zero => intro base _; rfl
  | succ n ih =>
    intro base h
    have hb : s.memRead base = .ok (s.mem.read base) := by
      rw [State.memRead, if_pos (by omega)]
    rw [State.memReadBlock, hb, ih (base + 1) (by omega), List.range_succ_eq_map]
    simp [Function.comp_def, Nat.add_assoc, Nat.add_comm 1]

/-- A non-empty block read that leaves the 4096 bytes faults at the lowest address out of range. -/
theorem State.memReadBlock_fault (s : State) (n : Nat) : ∀ base, 0 < n → Config.memorySize < base + n →
    s.memReadBlock base n = .error (s.bounds .memRead (max base 0x1000)) := by
  induction n with
  | zero => intro base h; omega
  | succ n ih =>
    intro base _ h
    by_cases hb : base < Config.memorySize
    · have hr : s.memRead base = .ok (s.mem.read base) := by rw [State.memRead, if_pos hb]
      rw [State.memReadBlock, hr, ih (base + 1) (by omega) (by omega), lowestFault_inside hb]
    · have hr : s.memRead base = .error (s.bounds .memRead base) := by rw [State.memRead, if_neg hb]
      rw [State.memReadBlock, hr, lowestFault_outside hb]

/-- A block write inside the 4096 bytes stores the bytes in order and touches nothing but memory. -/
theorem State.memWriteBlock_ok (bytes : List Byte) : ∀ (s : State) (base : Nat),
    base + bytes.length ≤ Config.memorySize →
    s.memWriteBlock base bytes = .ok (s.setMem (s.mem.writeAll base bytes)) := by
  induction bytes with
  | nil => intro s base _; rfl
  | cons b rest ih =>
    intro s base h
    rw [List.length_cons] at h
    have hw : s.memWrite base b = .ok (s.setMem (s.mem.write base b)) := by
      rw [State.memWrite, if_pos (by omega)]
    rw [State.memWriteBlock, hw]
    exact ih _ (base + 1) (by omega)

/-- A non-empty block write that leaves the 4096 bytes faults at the lowest address out of range. -/
theorem State.memWriteBlock_fault (bytes : List Byte) : ∀ (s : State) (base : Nat), 0 < bytes.length →
    Config.memorySize < base + bytes.length →
    s.memWriteBlock base bytes = .error (s.bounds .memWrite (max base 0x1000)) := by
  induction bytes with
  | nil => intro s base h; simp at h
  | cons b rest ih =>
    intro s base _ h
    rw [List.length_cons] at h
    by_cases hb : base < Config.memorySize
    · have hw : s.memWrite base b = .ok (s.setMem (s.mem.write base b)) := by rw [State.memWrite, if_pos hb]
      rw [State.memWriteBlock, hw, ← lowestFault_inside hb]
      exact ih _ (base + 1) (by omega) (by omega)
    · have hw : s.memWrite base b = .error (s.bounds .memWrite base) := by rw [State.memWrite, if_neg hb]
      rw [State.memWriteBlock, hw, lowestFault_outside hb]

/-- A block read fails in one way only. -/
theorem State.memReadBlock_error {s : State} {base n : Nat} {f : Fault} (h : s.memReadBlock base n = .error f) :
    f = s.bounds .memRead (max base 0x1000) ∧ 0 < n ∧ Config.memorySize < base + n := by
  by_cases hz : n = 0
  · subst hz; cases h
  · by_cases hle : base + n ≤ Config.memorySize
    · rw [State.memReadBlock_ok s n base hle] at h; cases h
    · rw [State.memReadBlock_fault s n base (by omega) (by omega)] at h
      exact ⟨(Except.error.inj h).symm, by omega, by omega⟩

/-- A block write fails in one way only. -/
theorem State.memWriteBlock_error {bytes : List Byte} {s : State} {base : Nat} {f : Fault}
    (h : s.memWriteBlock base bytes = .error f) :
    f = s.bounds .memWrite (max base 0x1000) ∧ bytes ≠ [] ∧ Config.memorySize < base + bytes.length := by
  by_cases hz : bytes = []
  · subst hz; cases h
  · have hl : 0 < bytes.length := List.length_pos_iff.mpr hz
    by_cases hle : base + bytes.length ≤ Config.memorySize
    · rw [State.memWriteBlock_ok bytes s base hle] at h; cases h
    · rw [State.memWriteBlock_fault bytes s base hl (by omega)] at h
      exact ⟨(Except.error.inj h).symm, hz, by omega⟩

/-- A block write that answers a state only changed memory, and kept its canonical form. -/
theorem State.memWriteBlock_next {bytes : List Byte} {s t : State} {base : Nat}
    (h : s.memWriteBlock base bytes = .ok t) :
    t = s.setMem (s.mem.writeAll base bytes) ∧ (bytes = [] ∨ base + bytes.length ≤ Config.memorySize) := by
  by_cases hz : bytes = []
  · subst hz
    exact ⟨(Except.ok.inj h).symm, .inl rfl⟩
  · have hl : 0 < bytes.length := List.length_pos_iff.mpr hz
    by_cases hle : base + bytes.length ≤ Config.memorySize
    · rw [State.memWriteBlock_ok bytes s base hle] at h
      exact ⟨(Except.ok.inj h).symm, .inr hle⟩
    · rw [State.memWriteBlock_fault bytes s base hl (by omega)] at h
      cases h

/-! ## The stack (R15, R16) -/

theorem State.push_ok {s : State} {r : Word} {st : List Word} (h : s.push r = .ok st) :
    st = r :: s.stack ∧ ∀ d, s.cfg.stackDepth = some d → s.stack.length < d := by
  unfold State.push at h
  split at h
  · next hd => exact ⟨(Except.ok.inj h).symm, fun d he => by rw [hd] at he; cases he⟩
  · next d hd =>
    split at h
    · cases h
    · next hlt =>
      refine ⟨(Except.ok.inj h).symm, fun e he => ?_⟩
      rw [hd] at he
      cases he
      omega

theorem State.push_error {s : State} {r : Word} {f : Fault} (h : s.push r = .error f) :
    f = s.bounds .stackOverflow r.toNat ∧ ∃ d, s.cfg.stackDepth = some d ∧ d ≤ s.stack.length := by
  unfold State.push at h
  split at h
  · cases h
  · next d hd =>
    split at h
    · next hle => exact ⟨(Except.error.inj h).symm, d, hd, hle⟩
    · cases h

theorem State.pop_some {s : State} {r : Word} {st : List Word} (h : s.pop = some (r, st)) : s.stack = r :: st := by
  unfold State.pop at h
  split at h
  · cases h
  · next hs => rw [hs]; cases h; rfl

theorem State.pop_none {s : State} (h : s.pop = none) : s.stack = [] := by
  unfold State.pop at h
  split at h
  · assumption
  · cases h

/-! ## The key index (R170) -/

theorem State.keyIndex_ok {s : State} {x : Nibble} {k : Nat} (h : s.keyIndex x = .ok k) :
    k = (s.readV x).toNat ∧ k ≤ 15 := by
  unfold State.keyIndex at h
  split at h
  · next hle => cases h; exact ⟨rfl, hle⟩
  · cases h

theorem State.keyIndex_error {s : State} {x : Nibble} {f : Fault} (h : s.keyIndex x = .error f) :
    f = s.bounds .keyIndex (s.readV x).toNat ∧ 15 < (s.readV x).toNat := by
  unfold State.keyIndex at h
  split at h
  · cases h
  · next hle => cases h; exact ⟨rfl, by omega⟩

/-! ## The fetch (R41) and the end of a step -/

theorem State.fetch_ok {s : State} {w : Word} (h : s.fetch = .ok w) :
    s.pc.toNat ≤ 0xFFE ∧ w = wordOfBytes (s.mem.read s.pc.toNat) (s.mem.read (s.pc.toNat + 1)) := by
  unfold State.fetch at h
  split at h
  · cases h
  · split at h
    · cases h
    · cases h
      exact ⟨by omega, rfl⟩

theorem State.fetch_error {s : State} {f : Fault} (h : s.fetch = .error f) :
    f = s.bounds .fetch (max s.pc.toNat 0x1000) ∧ 0xFFE < s.pc.toNat := by
  unfold State.fetch at h
  split at h
  · next hgt =>
    cases h
    exact ⟨by rw [Nat.max_eq_left (by omega)], by omega⟩
  · split at h
    · next he =>
      cases h
      exact ⟨by rw [he]; rfl, by omega⟩
    · cases h

/-- A fetch inside the 4096 bytes answers the word at `pc`. -/
theorem State.fetch_inside {s : State} (h : s.pc.toNat ≤ 0xFFE) : s.fetch = .ok s.fetchedWord := by
  rw [State.fetch, if_neg (by omega), if_neg (by omega)]
  rfl

theorem endStep_next {o : Host.Outcome State Fault Refusal} {t : State} :
    endStep o = .next t ↔ ∃ u, o = .next u ∧ u.nextInputs = t := by
  cases o <;> simp [endStep]

theorem endStep_fault {o : Host.Outcome State Fault Refusal} {f : Fault} :
    endStep o = .fault f ↔ o = .fault f := by
  cases o <;> simp [endStep]

/-- The whole of what a step that goes on can do: fetch a word, and run its instruction or skip it. -/
theorem step_next {s t : State} (h : step s = .next t) :
    ∃ w, s.fetch = .ok w ∧
      ((∃ i u, decode w = some i ∧ exec i s = .next u ∧ t = u.nextInputs)
        ∨ (decode w = none ∧ s.cfg.decodeFaultPolicy = .skip
            ∧ t = State.nextInputs { s with pc := s.pc + 2, faultOut := some (.decodeFault w s.pc), faultSeen := true })) := by
  unfold step at h
  split at h
  · cases h
  · next w hw =>
    refine ⟨w, hw, ?_⟩
    obtain ⟨u, hu, rfl⟩ := endStep_next.mp h
    unfold runWord at hu
    split at hu
    · next i hi => exact .inl ⟨i, u, hi, hu, rfl⟩
    · next hd =>
      unfold State.raiseDecode at hu
      split at hu
      · next hp => cases hu; exact .inr ⟨hd, hp, rfl⟩
      · cases hu

/-- The whole of how a step can fault: in the fetch, in the instruction, or on an unrecognized word under `halt`. -/
theorem step_fault {s : State} {f : Fault} (h : step s = .fault f) :
    s.fetch = .error f ∨ ∃ w, s.fetch = .ok w ∧
      ((∃ i, decode w = some i ∧ exec i s = .fault f)
        ∨ (decode w = none ∧ s.cfg.decodeFaultPolicy = .halt ∧ f = .decodeFault w s.pc)) := by
  unfold step at h
  split at h
  · next g hg => cases h; exact .inl hg
  · next w hw =>
    refine .inr ⟨w, hw, ?_⟩
    have hf := endStep_fault.mp h
    unfold runWord at hf
    split at hf
    · next i hi => exact .inl ⟨i, hi, hf⟩
    · next hd =>
      unfold State.raiseDecode at hf
      split at hf
      · cases hf
      · next hp => cases hf; exact .inr ⟨hd, hp, rfl⟩

/-- A word stored at `a` is what a fetch at `a` reads, and every other byte is kept. -/
theorem State.storeWord_read (s : State) {a : Nat} (w : Word) (h : a + 1 < Config.memorySize) (b : Nat) :
    (s.storeWord a w).mem.read b =
      if b = a + 1 then loByte w else if b = a then hiByte w else s.mem.read b := by
  rw [State.storeWord, if_pos h]
  simp

end Sys2Proof.Machine
end

