-- ==== Sys2Proof/Laws/PerInstr.lean ====
section
/-! SUPPORT. Statements about every instruction as syntax, one lemma per constructor. Family `TableRow`: the encoded
word of an instruction lies in the row of the opcode map that its kind code numbers (R66, R68). -/

namespace Sys2Proof.Laws

/-- The row of spec/opcode_table.json that the kind code of `i` numbers accepts the encoded word of `i`. -/
def TableRow.Statement (i : Instr) : Prop :=
  (opcodeRows[(kindCode i).toNat]?).map (fun r => r.accepts (encode i)) = some true

theorem TableRow.clearDisplay : TableRow.Statement .clearDisplay := by
  simp [TableRow.Statement, Row.accepts, kindCode, opcodeRows, encode, and_maskF0FF]

theorem TableRow.ret : TableRow.Statement .ret := by
  simp [TableRow.Statement, Row.accepts, kindCode, opcodeRows, encode, and_maskF0FF]

theorem TableRow.jump (nnn : Addr12) : TableRow.Statement (.jump nnn) := by
  simp [TableRow.Statement, Row.accepts, kindCode, opcodeRows, encode, and_maskF000]

theorem TableRow.call (nnn : Addr12) : TableRow.Statement (.call nnn) := by
  simp [TableRow.Statement, Row.accepts, kindCode, opcodeRows, encode, and_maskF000]

theorem TableRow.skipEqConst (x : Nibble) (kk : Byte) : TableRow.Statement (.skipEqConst x kk) := by
  simp [TableRow.Statement, Row.accepts, kindCode, opcodeRows, encode, and_maskF000]

theorem TableRow.skipNeConst (x : Nibble) (kk : Byte) : TableRow.Statement (.skipNeConst x kk) := by
  simp [TableRow.Statement, Row.accepts, kindCode, opcodeRows, encode, and_maskF000]

theorem TableRow.skipEqReg (x y : Nibble) : TableRow.Statement (.skipEqReg x y) := by
  simp [TableRow.Statement, Row.accepts, kindCode, opcodeRows, encode, and_maskF000]

theorem TableRow.loadConst (x : Nibble) (kk : Byte) : TableRow.Statement (.loadConst x kk) := by
  simp [TableRow.Statement, Row.accepts, kindCode, opcodeRows, encode, and_maskF000]

theorem TableRow.addConst (x : Nibble) (kk : Byte) : TableRow.Statement (.addConst x kk) := by
  simp [TableRow.Statement, Row.accepts, kindCode, opcodeRows, encode, and_maskF000]

theorem TableRow.assign (x y : Nibble) : TableRow.Statement (.assign x y) := by
  simp [TableRow.Statement, Row.accepts, kindCode, opcodeRows, encode, and_maskF00F]

theorem TableRow.or (x y : Nibble) : TableRow.Statement (.or x y) := by
  simp [TableRow.Statement, Row.accepts, kindCode, opcodeRows, encode, and_maskF00F]

theorem TableRow.and (x y : Nibble) : TableRow.Statement (.and x y) := by
  simp [TableRow.Statement, Row.accepts, kindCode, opcodeRows, encode, and_maskF00F]

theorem TableRow.xor (x y : Nibble) : TableRow.Statement (.xor x y) := by
  simp [TableRow.Statement, Row.accepts, kindCode, opcodeRows, encode, and_maskF00F]

theorem TableRow.add (x y : Nibble) : TableRow.Statement (.add x y) := by
  simp [TableRow.Statement, Row.accepts, kindCode, opcodeRows, encode, and_maskF00F]

theorem TableRow.subtract (x y : Nibble) : TableRow.Statement (.subtract x y) := by
  simp [TableRow.Statement, Row.accepts, kindCode, opcodeRows, encode, and_maskF00F]

theorem TableRow.shiftRight (x y : Nibble) : TableRow.Statement (.shiftRight x y) := by
  simp [TableRow.Statement, Row.accepts, kindCode, opcodeRows, encode, and_maskF00F]

theorem TableRow.reduce (x y : Nibble) : TableRow.Statement (.reduce x y) := by
  simp [TableRow.Statement, Row.accepts, kindCode, opcodeRows, encode, and_maskF00F]

theorem TableRow.shiftLeft (x y : Nibble) : TableRow.Statement (.shiftLeft x y) := by
  simp [TableRow.Statement, Row.accepts, kindCode, opcodeRows, encode, and_maskF00F]

theorem TableRow.skipNeReg (x y : Nibble) : TableRow.Statement (.skipNeReg x y) := by
  simp [TableRow.Statement, Row.accepts, kindCode, opcodeRows, encode, and_maskF000]

theorem TableRow.setMemoryAddress (nnn : Addr12) : TableRow.Statement (.setMemoryAddress nnn) := by
  simp [TableRow.Statement, Row.accepts, kindCode, opcodeRows, encode, and_maskF000]

theorem TableRow.jumpToV0Address (nnn : Addr12) : TableRow.Statement (.jumpToV0Address nnn) := by
  simp [TableRow.Statement, Row.accepts, kindCode, opcodeRows, encode, and_maskF000]

theorem TableRow.bitwiseRandom (x : Nibble) (kk : Byte) : TableRow.Statement (.bitwiseRandom x kk) := by
  simp [TableRow.Statement, Row.accepts, kindCode, opcodeRows, encode, and_maskF000]

theorem TableRow.drawSprite (x y n : Nibble) : TableRow.Statement (.drawSprite x y n) := by
  simp [TableRow.Statement, Row.accepts, kindCode, opcodeRows, encode, and_maskF000]

theorem TableRow.skipIfPressed (x : Nibble) : TableRow.Statement (.skipIfPressed x) := by
  simp [TableRow.Statement, Row.accepts, kindCode, opcodeRows, encode, and_maskF0FF]

theorem TableRow.skipIfNotPressed (x : Nibble) : TableRow.Statement (.skipIfNotPressed x) := by
  simp [TableRow.Statement, Row.accepts, kindCode, opcodeRows, encode, and_maskF0FF]

theorem TableRow.loadDelay (x : Nibble) : TableRow.Statement (.loadDelay x) := by
  simp [TableRow.Statement, Row.accepts, kindCode, opcodeRows, encode, and_maskF0FF]

theorem TableRow.waitForPress (x : Nibble) : TableRow.Statement (.waitForPress x) := by
  simp [TableRow.Statement, Row.accepts, kindCode, opcodeRows, encode, and_maskF0FF]

theorem TableRow.setDelay (x : Nibble) : TableRow.Statement (.setDelay x) := by
  simp [TableRow.Statement, Row.accepts, kindCode, opcodeRows, encode, and_maskF0FF]

theorem TableRow.setSound (x : Nibble) : TableRow.Statement (.setSound x) := by
  simp [TableRow.Statement, Row.accepts, kindCode, opcodeRows, encode, and_maskF0FF]

theorem TableRow.addOffset (x : Nibble) : TableRow.Statement (.addOffset x) := by
  simp [TableRow.Statement, Row.accepts, kindCode, opcodeRows, encode, and_maskF0FF]

theorem TableRow.setMemoryForFont (x : Nibble) : TableRow.Statement (.setMemoryForFont x) := by
  simp [TableRow.Statement, Row.accepts, kindCode, opcodeRows, encode, and_maskF0FF]

theorem TableRow.setBCD (x : Nibble) : TableRow.Statement (.setBCD x) := by
  simp [TableRow.Statement, Row.accepts, kindCode, opcodeRows, encode, and_maskF0FF]

theorem TableRow.dumpReg (x : Nibble) : TableRow.Statement (.dumpReg x) := by
  simp [TableRow.Statement, Row.accepts, kindCode, opcodeRows, encode, and_maskF0FF]

theorem TableRow.loadReg (x : Nibble) : TableRow.Statement (.loadReg x) := by
  simp [TableRow.Statement, Row.accepts, kindCode, opcodeRows, encode, and_maskF0FF]

end Sys2Proof.Laws
end

