-- ==== Sys2Proof/Laws/Screen.lean ====
section
/-! SUPPORT. The framebuffer: what a flip and a sequence of flips make of each cell, and which cells a sprite
visits. -/

namespace Sys2Proof.Machine

@[simp] theorem FrameBuffer.cell_blank (k : Nat) : FrameBuffer.blank.cell k = false := by
  unfold FrameBuffer.cell FrameBuffer.blank
  split
  · simp
  · rfl

/-- A flip changes its own cell and no other; outside the 2048 cells it changes nothing. -/
@[simp] theorem FrameBuffer.cell_flip (fb : FrameBuffer) (k j : Nat) :
    (fb.flip k).cell j = if j = k ∧ k < 2048 then !fb.cell j else fb.cell j := by
  unfold FrameBuffer.cell FrameBuffer.flip
  by_cases hk : k / 64 < 32
  · by_cases hj : j / 64 < 32
    · rw [dif_pos hk, dif_pos hj, dif_pos hj, Vector.getElem_set]
      have hk2 : k < 2048 := by omega
      by_cases hrow : k / 64 = j / 64
      · rw [if_pos hrow, BitVec.getLsbD_xor, BitVec.getLsbD_twoPow]
        by_cases he : j = k
        · subst he
          simp [hk2, Nat.mod_lt]
        · have hc : ¬k % 64 = j % 64 := fun h => he (by omega)
          simp only [he, false_and, if_false, hc, decide_false, Bool.and_false, Bool.xor_false, hrow]
      · have he : j ≠ k := fun h => hrow (by rw [h])
        rw [if_neg hrow, if_neg (by simp [he])]
    · have he : j ≠ k := fun h => hj (by rw [h]; exact hk)
      rw [dif_neg hj, dif_neg hj]
      simp [he]
  · have hk2 : ¬k < 2048 := by omega
    rw [dif_neg hk]
    simp [hk2]

/-- The cells of a row the sprite draws: one for each set bit that lies inside the grid (R161, R162). -/
theorem mem_spriteRowCells {sx py k : Nat} {row : Byte} :
    k ∈ spriteRowCells sx py row ↔
      ∃ c, c < 8 ∧ row.getLsbD (7 - c) = true ∧ sx + c ≤ 63 ∧ py ≤ 31 ∧ k = py * 64 + (sx + c) := by
  simp only [spriteRowCells, List.mem_filterMap, List.mem_range]
  constructor
  · rintro ⟨c, hc, h⟩
    split at h
    · next hcond =>
      simp only [Bool.and_eq_true, decide_eq_true_eq] at hcond
      exact ⟨c, hc, hcond.1.1, hcond.1.2, hcond.2, (Option.some.inj h).symm⟩
    · cases h
  · rintro ⟨c, hc, hbit, hx, hy, rfl⟩
    exact ⟨c, hc, by simp [hbit, hx, hy]⟩

/-- The cells of a sprite, row by row. -/
theorem mem_spriteCells {sx k : Nat} (rows : List Byte) : ∀ sy, k ∈ spriteCells sx sy rows ↔
    ∃ r c, ∃ h : r < rows.length, c < 8 ∧ (rows[r]).getLsbD (7 - c) = true ∧ sx + c ≤ 63 ∧ sy + r ≤ 31
      ∧ k = (sy + r) * 64 + (sx + c) := by
  induction rows with
  | nil => intro sy; simp [spriteCells]
  | cons row rest ih =>
    intro sy
    rw [spriteCells, List.mem_append, mem_spriteRowCells, ih]
    constructor
    · rintro (⟨c, hc, hb, hx, hy, hk⟩ | ⟨r, c, hr, hc, hb, hx, hy, hk⟩)
      · exact ⟨0, c, by simp, hc, by simpa using hb, hx, by omega, by simpa using hk⟩
      · exact ⟨r + 1, c, by simpa using hr, hc, by simpa using hb, hx, by omega, by rw [hk]; congr 2; omega⟩
    · rintro ⟨r, c, hr, hc, hb, hx, hy, hk⟩
      cases r with
      | zero => exact .inl ⟨c, hc, by simpa using hb, hx, by omega, by simpa using hk⟩
      | succ r =>
        exact .inr ⟨r, c, by simpa using hr, hc, by simpa using hb, hx, by omega, by rw [hk]; congr 2; omega⟩

/-- Every cell a sprite visits is one of the 2048 (R162 part 3). -/
theorem spriteCells_lt {sx sy k : Nat} {rows : List Byte} (h : k ∈ spriteCells sx sy rows) : k < 2048 := by
  obtain ⟨r, c, _, _, _, hx, hy, rfl⟩ := (mem_spriteCells rows sy).mp h
  omega

/-- A sprite visits a cell at most once (R161 corner case (c)). -/
theorem spriteCells_nodup (sx : Nat) (rows : List Byte) : ∀ sy, (spriteCells sx sy rows).Nodup := by
  induction rows with
  | nil => intro sy; simp [spriteCells]
  | cons row rest ih =>
    intro sy
    rw [spriteCells, List.nodup_append]
    refine ⟨?_, ih _, ?_⟩
    · unfold spriteRowCells
      refine List.Nodup.filterMap ?_ List.nodup_range
      intro c d k hc hd
      simp only [Option.mem_def, Option.ite_none_right_eq_some, Option.some.injEq] at hc hd
      omega
    · intro a ha b hb
      obtain ⟨c, hc, _, hx, _, rfl⟩ := mem_spriteRowCells.mp ha
      obtain ⟨r, d, _, hd, _, hx2, _, rfl⟩ := (mem_spriteCells rest (sy + 1)).mp hb
      omega

/-- What the drawing loop makes of each cell: a cell visited once is flipped, one not visited is kept. -/
theorem drawCells_cell (ks : List Nat) : ∀ (fb : FrameBuffer) (hit : Bool) (j : Nat), ks.Nodup →
    (∀ k ∈ ks, k < 2048) → (drawCells fb hit ks).1.cell j = if j ∈ ks then !fb.cell j else fb.cell j := by
  induction ks with
  | nil => intro fb hit j _ _; simp [drawCells]
  | cons k rest ih =>
    intro fb hit j hnd hlt
    rw [List.nodup_cons] at hnd
    rw [drawCells, ih _ _ _ hnd.2 fun m hm => hlt m (by simp [hm]), FrameBuffer.cell_flip]
    by_cases hj : j = k
    · subst hj
      simp [hnd.1, hlt]
    · simp [hj]

/-- The collision flag of the drawing loop: some visited cell held 1 before (R163). -/
theorem drawCells_hit (ks : List Nat) : ∀ (fb : FrameBuffer) (hit : Bool), ks.Nodup →
    ((drawCells fb hit ks).2 = true ↔ hit = true ∨ ∃ k ∈ ks, fb.cell k = true) := by
  induction ks with
  | nil => intro fb hit _; simp [drawCells]
  | cons k rest ih =>
    intro fb hit hnd
    rw [List.nodup_cons] at hnd
    rw [drawCells, ih _ _ hnd.2]
    have hrest : ∀ j ∈ rest, (fb.flip k).cell j = fb.cell j := fun j hj => by
      have : j ≠ k := fun h => hnd.1 (h ▸ hj)
      simp [this]
    constructor
    · rintro (h | ⟨j, hj, h⟩)
      · rcases Bool.or_eq_true_iff.mp h with h | h
        · exact .inl h
        · exact .inr ⟨k, by simp, h⟩
      · exact .inr ⟨j, by simp [hj], by rw [← hrest j hj]; exact h⟩
    · rintro (h | ⟨j, hj, h⟩)
      · exact .inl (by simp [h])
      · rcases List.mem_cons.mp hj with rfl | hj
        · exact .inl (by simp [h])
        · exact .inr ⟨j, hj, by rw [hrest j hj]; exact h⟩

end Sys2Proof.Machine
end

