-- ==== Sys2Proof/Tests/Slice0.lean ====
section
/-! SUPPORT. Our own tests: the checks of WellFormed on ill-formed terms, the decoder on words of the spec, one step
per instruction, and a witness for the hypotheses of every statement. Expected results are those of
spec/95_test_vectors.md (row names in the comments) or follow by hand from the cited rule. -/

namespace Sys2Proof.Tests

open Sys2Proof Sys2Proof.Machine

/-! ## Helpers -/

/-- The start state of 95_test_vectors.md: reset, no key held, random byte 0. -/
def base : State := State.reset.present 0 0

/-- Registers set from a list of (index, value). -/
def withV (s : State) : List (Nibble × Byte) → State
  | [] => s
  | (x, b) :: rest => withV (s.writeV x b) rest

/-- The registers of the DumpReg and LoadReg rows: `V[i] = 0x10 + i`. -/
def ramp (s : State) : State := s.writeVs 0 ((List.range 16).map fun k => BitVec.ofNat 8 (0x10 + k))

/-- Bytes put into memory. -/
def withBytes (s : State) (a : Nat) (bytes : List Byte) : State := s.setMem (s.mem.writeAll a bytes)

/-- `DECODE_FAULT_POLICY = halt` -/
def halting (s : State) : State := { s with cfg := { s.cfg with decodeFaultPolicy := .halt } }

/-- One step of the opcode put at `pc`; what `f` sees of the next state, `none` when there is none. -/
def after {α : Type} (w : Nat) (s : State) (f : State → α) : Option α :=
  match step (s.withFetchWord 16 w) with
  | .next t => some (f t)
  | _ => none

/-- The fault a step of the opcode put at `pc` ends in. -/
def faultAfter (w : Nat) (s : State) : Option Fault :=
  match step (s.withFetchWord 16 w) with
  | .fault f => some f
  | _ => none

/-- The outcome is a next state, and `p` holds of it. -/
def goesOnWith (o : Host.Outcome State Fault Refusal) (p : State → Bool) : Bool :=
  match o with
  | .next t => p t
  | _ => false

/-- The instruction answers a next state. -/
def goesOn (i : Instr) (s : State) : Bool := goesOnWith (exec i s) fun _ => true

/-! ## WellFormed: each check refuses an ill-formed term -/

theorem test_params_wf : Config.defaultParams.wf ∧ ({ stackDepth := none, decodeFaultPolicy := .halt } : Params).wf := by
  decide

theorem test_params_zero_depth_refused : ¬({ stackDepth := some 0, decodeFaultPolicy := .skip } : Params).wf := by decide

theorem test_program_of_3585_bytes_refused (program : List Byte) (h : program.length = 3585) : ¬programWf program := by
  rw [programWf, h]
  decide

theorem test_program_of_3584_bytes (program : List Byte) (h : program.length = 3584) : programWf program := by
  rw [programWf, h]
  decide

theorem test_font_of_79_bytes_refused : fontWf defaultFont ∧ ¬fontWf defaultFont.tail := by decide

theorem test_noncanonical_words_refused :
    canonicalWord 0x0AE0 = false ∧ canonicalWord 0x5ABF = false ∧ canonicalWord 0x9AB7 = false
      ∧ canonicalWord 0x00E0 = true ∧ canonicalWord 0x5AB0 = true ∧ canonicalWord 0x8AB7 = true := by decide

theorem test_memory_wf_refuses_unsorted : ¬Memory.wf [(0x301, 1), (0x300, 1)] := by decide

theorem test_memory_wf_refuses_repeats : ¬Memory.wf [(0x300, 1), (0x300, 2)] := by decide

theorem test_memory_wf_refuses_address_0x1000 : Memory.wf [(0xFFF, 1)] ∧ ¬Memory.wf [(0x1000, 1)] := by decide

/-- 0 is what address 0x300 reads as unlisted, 0xF0 what address 0 does. -/
theorem test_memory_wf_refuses_reset_contents : ¬Memory.wf [(0x300, 0)] ∧ ¬Memory.wf [(0, 0xF0)] := by decide

theorem test_stack_of_17_does_not_fit :
    ¬(base.setStack (List.replicate 17 0x200)).stackFits ∧ (base.setStack (List.replicate 16 0x200)).stackFits := by decide

/-! ## The decoder on the spec's words (95_test_vectors.md 2.1), every constructor once -/

theorem test_decode_group_0 : decode 0x00E0 = some .clearDisplay ∧ decode 0x00EE = some .ret := by decide

theorem test_decode_addresses :
    decode 0x1000 = some (.jump 0x000) ∧ decode 0x2FFF = some (.call 0xFFF)
      ∧ decode 0xA123 = some (.setMemoryAddress 0x123) ∧ decode 0xB123 = some (.jumpToV0Address 0x123) := by decide

theorem test_decode_immediates :
    decode 0x3A42 = some (.skipEqConst 0xA 0x42) ∧ decode 0x4A42 = some (.skipNeConst 0xA 0x42)
      ∧ decode 0x6F00 = some (.loadConst 0xF 0x00) ∧ decode 0x7001 = some (.addConst 0x0 0x01)
      ∧ decode 0xC1FF = some (.bitwiseRandom 0x1 0xFF) := by decide

theorem test_decode_register_pairs :
    decode 0x5AB0 = some (.skipEqReg 0xA 0xB) ∧ decode 0x9AB0 = some (.skipNeReg 0xA 0xB)
      ∧ decode 0xD123 = some (.drawSprite 0x1 0x2 0x3) := by decide

theorem test_decode_group_8 :
    decode 0x8AB0 = some (.assign 0xA 0xB) ∧ decode 0x8AB1 = some (.or 0xA 0xB)
      ∧ decode 0x8AB2 = some (.and 0xA 0xB) ∧ decode 0x8AB3 = some (.xor 0xA 0xB)
      ∧ decode 0x8AB4 = some (.add 0xA 0xB) ∧ decode 0x8AB5 = some (.subtract 0xA 0xB)
      ∧ decode 0x8AB6 = some (.shiftRight 0xA 0xB) ∧ decode 0x8AB7 = some (.reduce 0xA 0xB)
      ∧ decode 0x8ABE = some (.shiftLeft 0xA 0xB) := by decide

theorem test_decode_group_E :
    decode 0xE19E = some (.skipIfPressed 1) ∧ decode 0xE1A1 = some (.skipIfNotPressed 1) := by decide

theorem test_decode_group_F :
    decode 0xF107 = some (.loadDelay 1) ∧ decode 0xF10A = some (.waitForPress 1) ∧ decode 0xF115 = some (.setDelay 1)
      ∧ decode 0xF118 = some (.setSound 1) ∧ decode 0xF11E = some (.addOffset 1)
      ∧ decode 0xF129 = some (.setMemoryForFont 1) ∧ decode 0xF133 = some (.setBCD 1)
      ∧ decode 0xF155 = some (.dumpReg 1) ∧ decode 0xF165 = some (.loadReg 1) := by decide

theorem test_decode_ignored_nibbles :
    decode 0x0AE0 = some .clearDisplay ∧ decode 0x0FEE = some .ret ∧ decode 0x5ABF = some (.skipEqReg 0xA 0xB)
      ∧ decode 0x9AB7 = some (.skipNeReg 0xA 0xB) := by decide

theorem test_decode_unrecognized :
    decode 0x0000 = none ∧ decode 0x00E1 = none ∧ decode 0x0FFF = none ∧ decode 0x8AB8 = none ∧ decode 0x8ABF = none
      ∧ decode 0xE09D = none ∧ decode 0xE1A0 = none ∧ decode 0xF166 = none ∧ decode 0xF175 = none
      ∧ decode 0xFFFF = none := by decide

theorem test_unrecognized_kind_is_63 : kindPort 0x0123 = 63 ∧ (decoderPorts 0x0123).valid = false := by decide

/-- The words in memory order, most-significant byte first (R41). -/
theorem test_decodeBytes :
    decodeBytes [0x66, 0x78, 0x11] = .ok (.loadConst 6 0x78, [0x11]) ∧ decodeBytes [0x66] = .error .truncated
      ∧ decodeBytes [0x8A, 0xB8] = .error (.unrecognized 0x8AB8) := ⟨rfl, rfl, rfl⟩

theorem test_encodeBytes : encodeBytes (.drawSprite 1 2 3) = [0xD1, 0x23] ∧ encodeBytes .ret = [0x00, 0xEE] := by decide

/-! ## One step per instruction -/

/-! ### Control flow (41_control_flow.md) -/

/-- C2 -/
theorem test_return_pops :
    after 0x00EE { base with pc := 0x300, stack := [0x400, 0x200] } (fun t => (t.pc, t.stack)) = some (0x402, [0x200]) := by
  decide

/-- C1 -/
theorem test_return_on_empty_stack : after 0x00EE base (fun t => (t.pc, t.stack, t.faultOut)) = some (0x202, [], none) := by
  decide

/-- S1, C4 -/
theorem test_jump :
    after 0x1123 base State.pc = some 0x123
      ∧ after 0x1200 (base.setDelay 3) (fun t => (t.pc, t.delay)) = some (0x200, 2) := by decide

/-- C6 -/
theorem test_call : after 0x2208 base (fun t => (t.pc, t.stack)) = some (0x208, [0x200]) := by decide

/-- C7, C8 -/
theorem test_call_on_full_stack :
    faultAfter 0x2300 { base with pc := 0x250, stack := List.replicate 16 0x200 }
        = some (.boundsFault .stackOverflow 0x250 0x250)
      ∧ after 0x2300 { base with pc := 0x250, stack := List.replicate 16 0x200, cfg := ⟨none, .skip⟩ }
        (fun t => (t.pc, t.stack.length, t.stack.head?)) = some (0x300, 17, some 0x250) := by decide

/-- C9, C10 -/
theorem test_jump_to_v0 :
    after 0xB300 (withV base [(0, 0x10), (3, 0x99)]) State.pc = some 0x310
      ∧ after 0xBFFF (withV base [(0, 0xFF)]) State.pc = some 0x10FE := by decide

/-- C11, C12 -/
theorem test_skip_eq_const :
    after 0x332A (withV base [(3, 0x2A)]) State.pc = some 0x204
      ∧ after 0x332B (withV base [(3, 0x2A)]) State.pc = some 0x202 := by decide

/-- C13, C14 -/
theorem test_skip_ne_const :
    after 0x432A (withV base [(3, 0x2A)]) State.pc = some 0x202
      ∧ after 0x4300 (withV base [(3, 0x2A)]) State.pc = some 0x204 := by decide

/-- C17, C18 -/
theorem test_skip_eq_reg :
    after 0x512F (withV base [(1, 7), (2, 7)]) State.pc = some 0x204
      ∧ after 0x5120 (withV base [(1, 7), (2, 8)]) State.pc = some 0x202 := by decide

/-- C21, C22 -/
theorem test_skip_ne_reg :
    after 0x9125 (withV base [(1, 7), (2, 8)]) State.pc = some 0x204
      ∧ after 0x9120 (withV base [(1, 7), (2, 7)]) State.pc = some 0x202 := by decide

/-! ### Loads, arithmetic, logic, shifts, random (42_load_alu.md) -/

/-- S2 -/
theorem test_load_const : after 0x6678 base (fun t => (t.readV 6, t.pc)) = some (0x78, 0x202) := by decide

/-- A2, A4 -/
theorem test_add_const :
    after 0x7220 (withV base [(2, 0xF0), (15, 1)]) (fun t => (t.readV 2, t.readV 15)) = some (0x10, 1)
      ∧ after 0x7F03 (withV base [(15, 0xFE)]) (fun t => t.readV 15) = some 1 := by decide

/-- A5 -/
theorem test_assign : after 0x8340 (withV base [(4, 0x9C)]) (fun t => (t.readV 3, t.readV 4)) = some (0x9C, 0x9C) := by
  decide

/-- A6 -/
theorem test_or :
    after 0x8121 (withV base [(1, 0x0F), (2, 0xF0), (15, 1)]) (fun t => (t.readV 1, t.readV 15)) = some (0xFF, 1) := by
  decide

/-- A7 -/
theorem test_and :
    after 0x8122 (withV base [(1, 0x3C), (2, 0x0F), (15, 1)]) (fun t => (t.readV 1, t.readV 15)) = some (0x0C, 1) := by
  decide

/-- A8 -/
theorem test_xor :
    after 0x8123 (withV base [(1, 0x3C), (2, 0x0F), (15, 1)]) (fun t => (t.readV 1, t.readV 15)) = some (0x33, 1) := by
  decide

/-- S6, A10 -/
theorem test_add :
    after 0x8124 (withV base [(1, 0xFE), (2, 3)]) (fun t => (t.readV 1, t.readV 2, t.readV 15)) = some (1, 3, 1)
      ∧ after 0x8124 (withV base [(1, 0xFF)]) (fun t => (t.readV 1, t.readV 15)) = some (0xFF, 0) := by decide

/-- A14, A15 -/
theorem test_add_with_vf :
    after 0x8F24 (withV base [(15, 0xC8), (2, 0x64)]) (fun t => t.readV 15) = some 1
      ∧ after 0x81F4 (withV base [(15, 5), (1, 0xFE)]) (fun t => (t.readV 1, t.readV 15)) = some (3, 1) := by decide

/-- S7, A17 -/
theorem test_subtract :
    after 0x8125 (withV base [(1, 1), (2, 2)]) (fun t => (t.readV 1, t.readV 15)) = some (0xFF, 0)
      ∧ after 0x8125 (withV base [(1, 5), (2, 5), (15, 1)]) (fun t => (t.readV 1, t.readV 15)) = some (0, 0) := by decide

/-- S8, A20 -/
theorem test_subtract_without_borrow :
    after 0x8125 (withV base [(1, 2), (2, 1)]) (fun t => (t.readV 1, t.readV 15)) = some (1, 1)
      ∧ after 0x8F25 (withV base [(15, 9), (2, 4)]) (fun t => t.readV 15) = some 1 := by decide

/-- A27, A31 -/
theorem test_shift_right :
    after 0x8126 (withV base [(1, 0xAA), (2, 5)]) (fun t => (t.readV 1, t.readV 2, t.readV 15)) = some (2, 5, 1)
      ∧ after 0x81F6 (withV base [(15, 3), (1, 0x77)]) (fun t => (t.readV 1, t.readV 15)) = some (1, 1) := by decide

/-- A22, A23 -/
theorem test_reduce :
    after 0x8127 (withV base [(1, 3), (2, 10)]) (fun t => (t.readV 1, t.readV 15)) = some (7, 1)
      ∧ after 0x8127 (withV base [(1, 10), (2, 3)]) (fun t => (t.readV 1, t.readV 15)) = some (0xF9, 0) := by decide

/-- A33, A35 -/
theorem test_shift_left :
    after 0x812E (withV base [(1, 0xAA), (2, 0x81)]) (fun t => (t.readV 1, t.readV 2, t.readV 15)) = some (2, 0x81, 1)
      ∧ after 0x8F2E (withV base [(2, 0x82), (15, 7)]) (fun t => t.readV 15) = some 1 := by decide

/-- A37, A40 -/
theorem test_bitwise_random :
    after 0xC30F (base.present 0 0xB7) (fun t => t.readV 3) = some 7
      ∧ after 0xCFF0 (base.present 0 0xAB) (fun t => t.readV 15) = some 0xA0 := by decide

/-! ### Display (43_display.md) -/

/-- G1, S5 -/
theorem test_clear_display :
    after 0x00E0 { withV base [(15, 1)] with fb := Vector.replicate 32 (BitVec.allOnes 64) }
      (fun t => (decide (t.fb = FrameBuffer.blank), t.readV 15, t.pc)) = some (true, 1, 0x202) := by decide

/-- The cells of `t` that are 1, among the cells named. -/
def lit (cells : List Nat) (t : State) : List Nat := cells.filter t.fb.cell

/-- G4, G6 -/
theorem test_draw_at_the_right_edge :
    after 0xD011 { withV base [(0, 62)] with I := 0x300, mem := [(0x300, 0xFF)] }
        (fun t => (lit [0, 1, 61, 62, 63, 64, 65] t, t.readV 15)) = some ([62, 63], 0)
      ∧ after 0xD011 { withV base [(0, 64), (1, 5)] with I := 0x300, mem := [(0x300, 0xFF)] }
        (fun t => lit [319, 320, 327, 328] t) = some [320, 327] := by decide

/-- G15, G19 -/
theorem test_draw_collision :
    after 0xD011 { base with I := 0x300, mem := [(0x300, 0xC0)], fb := FrameBuffer.blank.flip 0 }
        (fun t => (lit [0, 1, 2] t, t.readV 15)) = some ([1], 1)
      ∧ after 0xDF11 { withV base [(15, 3), (1, 2)] with I := 0x300, mem := [(0x300, 0x80)] }
        (fun t => (lit [128, 130, 131, 132, 194] t, t.readV 15)) = some ([131], 0) := by decide

/-! ### Keys and timers (44_keys_timers.md) -/

/-- K1, K2 -/
theorem test_skip_if_pressed :
    after 0xE59E (withV (base.present 0x0400 0) [(5, 0x0A)]) State.pc = some 0x204
      ∧ after 0xE59E (withV (base.present 0xFBFF 0) [(5, 0x0A)]) State.pc = some 0x202 := by decide

/-- K3, K4 -/
theorem test_skip_if_not_pressed :
    after 0xE5A1 (withV (base.present 0xFBFF 0) [(5, 0x0A)]) State.pc = some 0x204
      ∧ after 0xE5A1 (withV (base.present 0x0400 0) [(5, 0x0A)]) State.pc = some 0x202 := by decide

/-- K8, K9 -/
theorem test_wait_for_press :
    after 0xF50A (withV (base.present 0x8000 0) [(5, 0x0F)]) (fun t => (t.pc, t.readV 5)) = some (0x202, 0x0F)
      ∧ after 0xF50A (withV (base.present 0x7FFF 0) [(5, 0x0F)]) (fun t => (t.pc, t.readV 5)) = some (0x200, 0x0F) := by
  decide

/-- K5, K6, K7 -/
theorem test_key_index_above_15 :
    faultAfter 0xE59E (withV (base.present 0xFFFF 0) [(5, 0x10)]) = some (.boundsFault .keyIndex 0x10 0x200)
      ∧ faultAfter 0xE5A1 (withV base [(5, 0x10)]) = some (.boundsFault .keyIndex 0x10 0x200)
      ∧ faultAfter 0xF50A (withV (base.present 0xFFFF 0) [(5, 0xFF)]) = some (.boundsFault .keyIndex 0xFF 0x200) := by
  decide

/-- K10, K12 -/
theorem test_load_delay :
    after 0xF407 (base.setDelay 0x20) (fun t => (t.readV 4, t.delay)) = some (0x1F, 0x1F)
      ∧ after 0xF407 base (fun t => (t.readV 4, t.delay)) = some (0, 0) := by decide

/-- K14 -/
theorem test_set_delay :
    after 0xF215 (withV ((base.setDelay 7).setSound 7) [(2, 0x3C)]) (fun t => (t.delay, t.sound)) = some (0x3C, 6) := by
  decide

/-- K15 -/
theorem test_set_sound :
    after 0xF218 (withV ((base.setDelay 7).setSound 7) [(2, 0x3C)]) (fun t => (t.delay, t.sound)) = some (6, 0x3C) := by
  decide

/-! ### The address register and the memory blocks (45_memory_index.md) -/

/-- M1 -/
theorem test_set_memory_address : after 0xAFFF base State.I = some 0x0FFF := by decide

/-- M2, M3 -/
theorem test_add_offset :
    after 0xF11E (withV (base.setI 0x0FF0) [(1, 0x20)]) (fun t => (t.I, t.readV 15)) = some (0x1010, 0)
      ∧ after 0xF11E (withV (base.setI 0xFFFF) [(1, 2), (15, 7)]) (fun t => (t.I, t.readV 15)) = some (1, 7) := by decide

/-- M5, M6 -/
theorem test_set_memory_for_font :
    after 0xF029 (withV base [(0, 0x0F)]) State.I = some 0x4B ∧ after 0xF029 (withV base [(0, 0xFF)]) State.I = some 0x4FB := by
  decide

/-- S12, M7 -/
theorem test_set_bcd :
    after 0xF033 (withV (base.setI 0x300) [(0, 0x81)])
        (fun t => (t.mem.read 0x300, t.mem.read 0x301, t.mem.read 0x302, t.I)) = some (1, 2, 9, 0x300)
      ∧ after 0xF333 (withV (base.setI 0x300) [(3, 7)])
        (fun t => (t.mem.read 0x300, t.mem.read 0x301, t.mem.read 0x302)) = some (0, 0, 7) := by decide

/-- M9, M10 -/
theorem test_set_bcd_past_the_end :
    faultAfter 0xF333 (withV (base.setI 0xFFE) [(3, 255)]) = some (.boundsFault .memWrite 0x1000 0x200)
      ∧ faultAfter 0xF333 (base.setI 0x1010) = some (.boundsFault .memWrite 0x1010 0x200) := by decide

/-- M12 -/
theorem test_dump_reg :
    after 0xF255 (ramp (base.setI 0x300))
      (fun t => (t.mem.read 0x300, t.mem.read 0x302, t.mem.read 0x303, t.I)) = some (0x10, 0x12, 0, 0x303) := by decide

/-- M14, M15 -/
theorem test_dump_reg_at_the_end :
    after 0xFF55 (ramp (base.setI 0xFF0)) (fun t => (t.mem.read 0xFF0, t.mem.read 0xFFF, t.I)) = some (0x10, 0x1F, 0x1000)
      ∧ faultAfter 0xFF55 (ramp (base.setI 0xFF1)) = some (.boundsFault .memWrite 0x1000 0x200) := by decide

/-- M18 -/
theorem test_load_reg :
    after 0xF265 (ramp { base with I := 0x300, mem := [(0x300, 0xA0), (0x301, 0xA1), (0x302, 0xA2), (0x303, 0xA3)] })
      (fun t => (t.readV 0, t.readV 2, t.readV 3, t.I)) = some (0xA0, 0xA2, 0x13, 0x303) := by decide

/-- M21, M22 -/
theorem test_load_reg_past_the_end :
    faultAfter 0xF265 (base.setI 0xFFE) = some (.boundsFault .memRead 0x1000 0x200)
      ∧ faultAfter 0xF065 (base.setI 0x4000) = some (.boundsFault .memRead 0x4000 0x200) := by decide

/-! ### Faults, fetch and the step (60_exceptions.md, 20_memory.md) -/

/-- F1, F2: the step that reports, and the ports of F1 (R204). -/
theorem test_decode_fault :
    after 0x0000 (base.setDelay 5) (fun t => (t.pc, t.delay, t.faultOut)) = some (0x202, 5, some (.decodeFault 0 0x200))
      ∧ faultAfter 0x0000 (halting base) = some (.decodeFault 0 0x200)
      ∧ faultClass (some (.decodeFault 0 0x200)) = 1 ∧ faultPc (some (.decodeFault 0 0x200)) = 0x200 := by decide

/-- F4, F5, F6, F7 -/
theorem test_fetch :
    faultAfter 0x0000 { base with pc := 0xFFF } = some (.boundsFault .fetch 0x1000 0xFFF)
      ∧ faultAfter 0x0000 { base with pc := 0x10FE } = some (.boundsFault .fetch 0x10FE 0x10FE)
      ∧ after 0x6011 { base with pc := 0xFFE } (fun t => (t.readV 0, t.pc)) = some (0x11, 0x1000)
      ∧ after 0x6123 { base with pc := 0x201 } (fun t => (t.readV 1, t.pc)) = some (0x23, 0x203) := by decide

/-- The ports of C7 (R204). -/
theorem test_fault_ports :
    faultClass (some (.boundsFault .stackOverflow 0x250 0x250)) = 2 ∧ faultSub (some (.boundsFault .stackOverflow 0x250 0x250)) = 5
      ∧ faultValue (some (.boundsFault .stackOverflow 0x250 0x250)) = 0x250
      ∧ faultPc (some (.boundsFault .stackOverflow 0x250 0x250)) = 0x250 ∧ faultClass none = 0 := by decide

/-! ## Witnesses: a concrete state and operands that meet the hypotheses of each statement, at the edges of each
clause. A statement without hypotheses has none here. -/

/-! ### The decoder and the encoder -/

theorem test_witness_canonical_word : canonicalWord 0x6F00 = true ∧ decode 0x6F00 = some (.loadConst 0xF 0) := by decide

theorem test_witness_matching_row :
    opcodeRows[33]? = some ⟨0xF065, 0xF0FF⟩ ∧ Row.accepts ⟨0xF065, 0xF0FF⟩ 0xF165 = true
      ∧ Row.accepts ⟨0xF065, 0xF0FF⟩ 0xF155 = false := by decide

theorem test_witness_ignored_nibbles :
    decode 0x0FEE = some .ret ∧ decode 0x5ABF = some (.skipEqReg 0xA 0xB) ∧ decode 0x9AB7 = some (.skipNeReg 0xA 0xB)
      ∧ decode 0x8AB7 = some (.reduce 0xA 0xB) := by decide

theorem test_witness_decoder_ports : decode 0x00E1 = none ∧ decode 0xF165 = some (.loadReg 1) := by decide

/-! ### The step -/

/-- The last fetchable word (F6), answering a next state, and a word that faults (C7). -/
theorem test_witness_step_runs :
    (({ base with pc := 0xFFE } : State).storeWord 0xFFE 0x6011).pc.toNat ≤ 0xFFE
      ∧ decode (({ base with pc := 0xFFE } : State).storeWord 0xFFE 0x6011).fetchedWord = some (.loadConst 0 0x11)
      ∧ goesOn (.loadConst 0 0x11) (({ base with pc := 0xFFE } : State).storeWord 0xFFE 0x6011) = true
      ∧ decode ((base.setI 0x4000).storeWord 0x200 0xF065).fetchedWord = some (.loadReg 0)
      ∧ goesOn (.loadReg 0) ((base.setI 0x4000).storeWord 0x200 0xF065) = false := by decide

theorem test_witness_fetch_past_the_end :
    0xFFE < ({ base with pc := 0xFFF } : State).pc.toNat ∧ 0xFFE < ({ base with pc := 0x1000 } : State).pc.toNat := by
  decide

theorem test_witness_unrecognized_policy :
    decode base.fetchedWord = none ∧ base.pc.toNat ≤ 0xFFE ∧ base.cfg.decodeFaultPolicy = .skip
      ∧ decode (halting base).fetchedWord = none ∧ (halting base).cfg.decodeFaultPolicy = .halt := by decide

theorem test_witness_faulted_state :
    step (halting base) = .fault (.decodeFault 0 0x200)
      ∧ step { base with pc := 0xFFF } = .fault (.boundsFault .fetch 0x1000 0xFFF) :=
  ⟨rfl, rfl⟩

/-- One fault of each instruction of R220's table. -/
theorem test_witness_instruction_faults :
    exec (.call 0x300) { base with stack := List.replicate 16 0x200 } = .fault (.boundsFault .stackOverflow 0x200 0x200)
      ∧ exec (.drawSprite 0 0 3) (base.setI 0xFFE) = .fault (.boundsFault .memRead 0x1000 0x200)
      ∧ exec (.loadReg 2) (base.setI 0xFFE) = .fault (.boundsFault .memRead 0x1000 0x200)
      ∧ exec (.setBCD 3) (base.setI 0xFFE) = .fault (.boundsFault .memWrite 0x1000 0x200)
      ∧ exec (.dumpReg 1) (base.setI 0xFFF) = .fault (.boundsFault .memWrite 0x1000 0x200)
      ∧ exec (.skipIfPressed 5) (withV base [(5, 0x10)]) = .fault (.boundsFault .keyIndex 0x10 0x200)
      ∧ exec (.skipIfNotPressed 5) (withV base [(5, 0x10)]) = .fault (.boundsFault .keyIndex 0x10 0x200)
      ∧ exec (.waitForPress 5) (withV base [(5, 0xFF)]) = .fault (.boundsFault .keyIndex 0xFF 0x200) :=
  ⟨rfl, rfl, rfl, rfl, rfl, rfl, rfl, rfl⟩

/-- One BoundsFault of a step for each sub-cause, the fetch at both of its values. -/
theorem test_witness_bounds_faults :
    step { base with pc := 0xFFF } = .fault (.boundsFault .fetch 0x1000 0xFFF)
      ∧ step { base with pc := 0x10FE } = .fault (.boundsFault .fetch 0x10FE 0x10FE)
      ∧ step ((base.setI 0xFFFF).storeWord 0x200 0xF065) = .fault (.boundsFault .memRead 0xFFFF 0x200)
      ∧ step ((base.setI 0xFFE).storeWord 0x200 0xF333) = .fault (.boundsFault .memWrite 0x1000 0x200)
      ∧ step ((withV base [(5, 0x10)]).storeWord 0x200 0xE59E) = .fault (.boundsFault .keyIndex 0x10 0x200)
      ∧ step (State.storeWord { base with stack := List.replicate 16 0x200 } 0x200 0x2300)
          = .fault (.boundsFault .stackOverflow 0x200 0x200) :=
  ⟨rfl, rfl, rfl, rfl, rfl, rfl⟩

/-! ### Invariants -/

/-- A state at the edges of the invariant: full stack, listed memory, `pc` at 0xFFE, a word that goes on. -/
def edge : State :=
  { base with pc := 0xFFE, stack := List.replicate 16 0xFFE, mem := [(0, 1), (0xFFE, 0xB0), (0xFFF, 0x01)] }

theorem test_witness_memory_wf : edge.mem.wf := by decide

theorem test_witness_invariant : edge.Inv :=
  ⟨test_witness_memory_wf, by decide, by decide, fun _ h => (List.eq_of_mem_replicate h) ▸ (by decide), by decide⟩

/-- The word at 0xFFE is 0xB001: it goes on. -/
theorem test_witness_step_goes_on : goesOnWith (step edge) (fun t => t.pc == 0x001) = true := by decide

theorem test_witness_host_reset :
    goesOnWith (State.hostReset base { program := [0x00, 0xE0], font := defaultFont, cfg := ⟨none, .halt⟩ })
        (fun t => t.pc == 0x200 && t.mem.read 0x201 == 0xE0) = true
      ∧ State.hostReset base { program := [], font := [], cfg := Config.defaultParams } = .refused .illegalParameter
      ∧ State.hostReset base { program := [], font := defaultFont, cfg := ⟨some 0, .skip⟩ } = .refused .illegalParameter :=
  ⟨by decide, rfl, rfl⟩

/-! ### Which instructions touch what -/

theorem test_witness_frames :
    (writesMemory (.loadReg 0) = false ∧ goesOn (.loadReg 0) base = true)
      ∧ (writesScreen (.setBCD 0) = false ∧ goesOn (.setBCD 0) base = true)
      ∧ (writesI (.drawSprite 0 0 1) = false ∧ goesOn (.drawSprite 0 0 1) base = true)
      ∧ (writesVF (.loadReg 14) = false ∧ goesOn (.loadReg 14) base = true)
      ∧ (writesVF (.addOffset 15) = false ∧ goesOn (.addOffset 15) base = true) := by decide

theorem test_witness_stack_writers :
    goesOn (.call 0x300) base = true ∧ goesOn .ret base = true ∧ writesStack (.jump 0x300) = false
      ∧ goesOn (.jump 0x300) base = true := by decide

theorem test_witness_timers :
    goesOn (.setDelay 2) base = true ∧ goesOn (.setSound 2) base = true ∧ goesOn .clearDisplay base = true := by decide

/-- Each side of the two premises: an instruction that reads no input under other inputs, and the two kinds of
reader with the input they read unchanged. -/
theorem test_witness_inputs :
    (readsKeys (.loadConst 0 0) = false ∧ readsRnd (.loadConst 0 0) = false)
      ∧ (readsKeys (.waitForPress 0) = true ∧ readsRnd (.waitForPress 0) = false ∧ (0 : BitVec 16) = base.keys)
      ∧ (readsRnd (.bitwiseRandom 0 0) = true ∧ readsKeys (.bitwiseRandom 0 0) = false ∧ (0 : Byte) = base.rnd) := by
  decide

/-! ### Reset -/

/-- Every clause at its edge: the longest program, one byte more, and each illegal parameter with a fitting program. -/
theorem test_witness_reset_lengths :
    (([] : List Byte).length ≤ 3584 ∧ (List.replicate 80 (0xFF : Byte)).length = 80 ∧ (some 1 : Option Nat) ≠ some 0)
      ∧ (List.replicate 3584 (0 : Byte)).length ≤ 3584 ∧ 3584 < (List.replicate 3585 (0 : Byte)).length
      ∧ (defaultFont.tail.length ≠ 80 ∧ (some 0 : Option Nat) = some 0) :=
  ⟨by decide, by rw [List.length_replicate], by rw [List.length_replicate]; decide, by decide⟩

/-- A font and parameters other than the defaults are the ones the machine is reset to (R7, R241). -/
theorem test_reset_takes_its_arguments :
    goesOnWith (State.hostReset { base with faultSeen := true, delay := 7 }
        { program := [0x12], font := 0xFF :: defaultFont.tail, cfg := ⟨some 2, .halt⟩ })
      (fun t => t.mem.read 0 == 0xFF && t.mem.read 79 == 0x80 && t.mem.read 80 == 0 && t.mem.read 0x200 == 0x12
        && t.cfg == ⟨some 2, .halt⟩ && t.faultOut == none && !t.faultSeen && t.delay == 0) = true := by decide

/-! ### The host's ports -/

/-- Each premise: an unrecognized word under either policy, a BoundsFault (F4's ports: 2, 1, 0x1000, 0x0FFF), an
instruction that completes. -/
theorem test_witness_fault_ports :
    (decode base.fetchedWord = none ∧ decode (halting base).fetchedWord = none ∧ base.pc.toNat ≤ 0xFFE)
      ∧ (step { base with pc := 0xFFF } = .fault (.boundsFault .fetch 0x1000 0xFFF)
        ∧ faultSub (State.tick { base with pc := 0xFFF }).faultOut = 1
        ∧ faultValue (State.tick { base with pc := 0xFFF }).faultOut = 0x1000
        ∧ faultPc (State.tick { base with pc := 0xFFF }).faultOut = 0xFFF)
      ∧ decode (base.storeWord 0x200 0x1123).fetchedWord = some (.jump 0x123)
      ∧ goesOn (.jump 0x123) (base.storeWord 0x200 0x1123) = true :=
  ⟨by decide, ⟨rfl, by decide, by decide, by decide⟩, by decide, by decide⟩

/-- G19: cell (3, 2) is entry 131; cell (2, 3), entry 194, is another. -/
theorem test_framebuffer_port :
    (State.framebufferPort { base with fb := FrameBuffer.blank.flip 131 })[131]? = some true
      ∧ (State.framebufferPort { base with fb := FrameBuffer.blank.flip 131 })[194]? = some false := by
  rw [State.framebufferPort, List.getElem?_map, List.getElem?_map, List.getElem?_range (by decide),
    List.getElem?_range (by decide)]
  decide

/-! ### Control flow -/

theorem test_witness_return :
    base.stack = [] ∧ (base.setStack [0x400, 0x200]).stack = 0x400 :: [0x200] := by decide

/-- Room for one more, no limit, and a full stack. -/
theorem test_witness_call :
    (base.cfg.stackDepth = some 16 ∧ (base.setStack (List.replicate 15 0x200)).stack.length < 16)
      ∧ ({ base with cfg := ⟨none, .skip⟩ } : State).cfg.stackDepth = none
      ∧ 16 ≤ (base.setStack (List.replicate 16 0x200)).stack.length := by decide

/-! ### The flag-writing instructions: `x` other than VF, and VF -/

theorem test_witness_flag_operands : (0 : Nibble) ≠ vf ∧ (14 : Nibble) ≠ vf ∧ (15 : Nibble) = vf := by decide

/-! ### Display -/

/-- Both ways the bytes lie in memory, at the edge. -/
theorem test_witness_draw_in_memory :
    ((0 : Nibble) = 0 ∧ (base.setI 0x2000).I = 0x2000) ∧ (base.setI 0xFF1).I.toNat + (15 : Nibble).toNat ≤ 0x1000
      ∧ ¬((base.setI 0xFF2).I.toNat + (15 : Nibble).toNat ≤ 0x1000) := by decide

/-- G5: with column 63 the top-left pixel is drawn at cell 383, and its neighbour is clipped. -/
theorem test_witness_sprite_cell :
    SpriteDraws { withV base [(0, 63), (1, 5)] with I := 0x300, mem := [(0x300, 0xFF)] } 0 1 1 383 :=
  ⟨0, 0, by decide, by decide, by decide, by decide, by decide, by decide⟩

theorem test_witness_sprite_clipped :
    ¬SpriteDraws { withV base [(0, 63), (1, 5)] with I := 0x300, mem := [(0x300, 0xFF)] } 0 1 1 384 := by
  rintro ⟨r, c, hr, hc, -, hx, -, hk⟩
  have h63 : spriteColumn { withV base [(0, 63), (1, 5)] with I := 0x300, mem := [(0x300, 0xFF)] } 0 = 63 := by decide
  have h5 : (State.readV { withV base [(0, 63), (1, 5)] with I := 0x300, mem := [(0x300, 0xFF)] } 1).toNat = 5 := by decide
  rw [h63] at hx hk
  rw [h5] at hk
  have h1 : r < 1 := hr
  omega

/-- G3: the glyph "0" drawn, then drawn again. -/
theorem test_witness_draw_twice :
    goesOnWith (exec (.drawSprite 0 1 5) base) (fun t => goesOn (.drawSprite 0 1 5) t && t.I == base.I
      && t.mem == base.mem && t.readV 0 == base.readV 0 && t.readV 1 == base.readV 1
      && lit [0, 3, 4, 64, 65, 259] t == [0, 3, 64, 259]) = true := by decide

/-! ### Keys -/

theorem test_witness_key_index :
    ((withV base [(5, 15)]).readV 5).toNat ≤ 15 ∧ 15 < ((withV base [(5, 16)]).readV 5).toNat := by decide

/-! ### Memory blocks -/

/-- The last block inside and the first outside, of each kind. -/
theorem test_witness_block_edges :
    ((base.setI 0xFFD).I.toNat + 2 ≤ 0xFFF ∧ 0xFFF < (base.setI 0xFFE).I.toNat + 2)
      ∧ ((base.setI 0xFF0).I.toNat + (15 : Nibble).toNat ≤ 0xFFF ∧ 0xFFF < (base.setI 0xFF1).I.toNat + (15 : Nibble).toNat)
      ∧ ((base.setI 0xFFF).I.toNat + (0 : Nibble).toNat ≤ 0xFFF ∧ 0xFFF < (base.setI 0x1000).I.toNat + (0 : Nibble).toNat)
      ∧ ((3 : Nibble) ≠ 0 ∧ 0xFFF < (base.setI 0xFFE).I.toNat + (3 : Nibble).toNat - 1) := by decide

/-- A DumpReg, the registers overwritten and `I` put back, and the LoadReg. -/
theorem test_witness_load_undoes_dump :
    goesOnWith (exec (.dumpReg 15) (ramp (base.setI 0xFF0))) (fun t =>
      goesOn (.loadReg 15) ((withV t [(3, 0)]).setI 0xFF0) && (((withV t [(3, 0)]).setI 0xFF0).mem == t.mem)) = true := by
  decide

/-! ### Programs -/

/-- P5 at its fourth step. -/
theorem test_witness_store_seen :
    goesOnWith (exec (.dumpReg 1) { withV base [(0, 0x12), (1, 0x08)] with pc := 0x206, I := 0x208 })
        (fun t => t.pc == 0x208 && t.fetchedWord == 0x1208) = true
      ∧ (0x208 : Word) = 0x206 + 2 ∧ (1 : Nibble) ≠ 0 := by decide

/-- `Jump 0xFFE` at 0xFFE, and P5's park; an unlisted word is not parked. -/
theorem test_witness_parked :
    (State.storeWord { base with pc := 0xFFE } 0xFFE 0x1FFE).Parked
      ∧ (State.storeWord { base with pc := 0x208 } 0x208 0x1208).EndedNormallyAt 0x208 ∧ ¬base.Parked := by decide

end Sys2Proof.Tests
end

section
/-! The family of 10_state.md: what an instruction that goes on can do to each piece of state, said once, and the
obligations about the invariant, the frames, the inputs, the reset state and the framebuffer port. -/

namespace Sys2Proof.Machine

/-! ## What the shared operations leave -/

/-- A block read answers as many bytes as were asked for. -/
theorem State.memReadBlock_length {s : State} {base n : Nat} {bytes : List Byte}
    (h : s.memReadBlock base n = .ok bytes) : bytes.length = n := by
  by_cases hle : base + n ≤ Config.memorySize
  · rw [State.memReadBlock_ok s n base hle] at h
    rw [← Except.ok.inj h, List.length_map, List.length_range]
  · by_cases hz : n = 0
    · subst hz
      rw [← Except.ok.inj h, List.length_nil]
    · rw [State.memReadBlock_fault s n base (by omega) (by omega)] at h
      cases h

/-- A block write that answers a state keeps the canonical form of memory. -/
theorem State.memWriteBlock_wf {s t : State} {base : Nat} {bytes : List Byte}
    (h : s.memWriteBlock base bytes = .ok t) (hs : s.mem.wf) : t.mem.wf := by
  obtain ⟨rfl, rfl | hle⟩ := State.memWriteBlock_next h
  · exact hs
  · exact Memory.writeAll_wf bytes hs hle

/-- LoadReg with `X` other than F leaves VF alone: the block ends at `V[X]` (R185). -/
theorem State.readV_vf_writeVs {s : State} {x : Nibble} {bytes : List Byte} (hlen : bytes.length = x.toNat + 1)
    (hx : x ≠ vf) : (s.writeVs 0 bytes).readV vf = s.readV vf := by
  have hne : x.toNat ≠ 15 := fun h => hx (BitVec.eq_of_toNat_eq h)
  have hvf : vf.toNat = 15 := rfl
  have := x.isLt
  rw [State.readV_writeVs _ _ _ _ (by omega), dif_neg (by omega)]

/-- What Return can do: move on with an empty stack, or pop the return address (R16, R120). -/
theorem execRet_next {s t : State} (h : execRet s = .next t) :
    (s.stack = [] ∧ t = s.tickTimers.retire s.pcNext)
      ∨ ∃ r rest, s.stack = r :: rest ∧ t = (s.tickTimers.setStack rest).retire (r + 2) := by
  unfold execRet at h
  split at h
  · next hp => cases h; exact .inl ⟨State.pop_none hp, rfl⟩
  · next r rest hp => cases h; exact .inr ⟨r, rest, State.pop_some hp, rfl⟩

/-- Return drops the top of the stack; the empty stack stays empty (R16). -/
theorem execRet_stack {s t : State} (h : execRet s = .next t) : t.stack = s.stack.tail := by
  obtain ⟨hs, rfl⟩ | ⟨r, rest, hs, rfl⟩ := execRet_next h
  all_goals simp [hs]

/-- What Call can do when it goes on: push its own address on a stack with room, and jump (R15, R122). -/
theorem execCall_next {nnn : Addr12} {s t : State} (h : execCall nnn s = .next t) :
    (∀ d, s.cfg.stackDepth = some d → s.stack.length < d)
      ∧ t = (s.tickTimers.setStack (s.pc :: s.stack)).retire (addrOf nnn) := by
  obtain ⟨st, hst, rfl⟩ := commit_next.mp h
  obtain ⟨rfl, hroom⟩ := State.push_ok hst
  exact ⟨hroom, rfl⟩

/-! ## What an instruction leaves unchanged -/

/-- What an instruction that went on left unchanged, by the tables of R11, R12, R14, R20 and R22; the parameters it
always leaves (R7). -/
structure ExecFrame (i : Instr) (s t : State) : Prop where
  cfg : t.cfg = s.cfg
  mem : writesMemory i = false → t.mem = s.mem
  fb : writesScreen i = false → t.fb = s.fb
  stack : writesStack i = false → t.stack = s.stack
  I : writesI i = false → t.I = s.I
  readVF : writesVF i = false → t.readV vf = s.readV vf

/-- Every instruction keeps what the tables say it does not write. The cases named are those whose meaning can end in
two ways (R220, and Return on an empty stack); every other one answers one next state outright. -/
theorem exec_frame {i : Instr} {s t : State} (h : exec i s = .next t) : ExecFrame i s t := by
  cases i with
  | ret =>
    obtain ⟨-, rfl⟩ | ⟨r, rest, -, rfl⟩ := execRet_next h
    all_goals constructor <;> simp [writesStack]
  | call nnn =>
    obtain ⟨-, rfl⟩ := execCall_next h
    constructor <;> simp [writesStack]
  | drawSprite x y n =>
    obtain ⟨rows, -, rfl⟩ := commit_next.mp h
    constructor <;> simp [writesScreen, writesVF]
  | skipIfPressed | skipIfNotPressed | waitForPress =>
    obtain ⟨k, -, rfl⟩ := commit_next.mp h
    constructor <;> simp
  | setBCD x =>
    obtain ⟨u, hu, rfl⟩ := commit_next.mp h
    obtain ⟨rfl, -⟩ := State.memWriteBlock_next hu
    constructor <;> simp [writesMemory]
  | dumpReg x =>
    obtain ⟨u, hu, rfl⟩ := commit_next.mp h
    obtain ⟨rfl, -⟩ := State.memWriteBlock_next hu
    constructor <;> simp [writesMemory, writesI]
  | loadReg x =>
    obtain ⟨bytes, hb, rfl⟩ := commit_next.mp h
    have hlen := State.memReadBlock_length hb
    constructor <;> simp +contextual [writesI, writesVF, State.readV_vf_writeVs hlen]
  | _ =>
    cases h
    constructor <;> simp +contextual [writesScreen, writesI, writesVF, eq_comm (a := vf)]

/-! ## The invariant -/

/-- Every instruction keeps memory canonical: the two that write it write inside the 4096 bytes (R20, R46). -/
theorem exec_mem_wf {i : Instr} {s t : State} (h : exec i s = .next t) (hs : s.mem.wf) : t.mem.wf := by
  cases i with
  | setBCD | dumpReg =>
    obtain ⟨u, hu, rfl⟩ := commit_next.mp h
    exact State.memWriteBlock_wf (t := u) hu hs
  | _ => rw [(exec_frame h).mem rfl]; exact hs

/-- What an instruction can make of the stack: keep it, push `pc` where there is room, or drop the top (R14 to R16). -/
theorem exec_stack_cases {i : Instr} {s t : State} (h : exec i s = .next t) :
    t.stack = s.stack
      ∨ (t.stack = s.pc :: s.stack ∧ ∀ d, s.cfg.stackDepth = some d → s.stack.length < d)
      ∨ t.stack = s.stack.tail := by
  cases i with
  | call nnn =>
    obtain ⟨hroom, rfl⟩ := execCall_next h
    exact .inr (.inl ⟨rfl, hroom⟩)
  | ret => exact .inr (.inr (execRet_stack h))
  | _ => exact .inl ((exec_frame h).stack rfl)

/-- Every instruction keeps the stack within its depth (R14). -/
theorem exec_stackFits {i : Instr} {s t : State} (h : exec i s = .next t) (hs : s.stackFits) : t.stackFits := by
  intro d hd
  rw [(exec_frame h).cfg] at hd
  have hfit := hs d hd
  obtain he | ⟨he, hroom⟩ | he := exec_stack_cases h
  · rwa [he]
  · rw [he]; exact hroom d hd
  · rw [he, List.length_tail]; omega

/-- Every instruction that was fetched keeps the return addresses at most 0xFFE (R120 (c)). -/
theorem exec_returnAddresses {i : Instr} {s t : State} (h : exec i s = .next t) (hpc : s.pc.toNat ≤ 0xFFE)
    (hs : ∀ r ∈ s.stack, r.toNat ≤ 0xFFE) : ∀ r ∈ t.stack, r.toNat ≤ 0xFFE := by
  obtain he | ⟨he, -⟩ | he := exec_stack_cases h
  · rwa [he]
  · rw [he]; exact List.forall_mem_cons.mpr ⟨hpc, hs⟩
  · rw [he]; exact fun r hr => hs r (List.mem_of_mem_tail hr)

theorem addrOf_toNat_le (nnn : Addr12) : (addrOf nnn).toNat ≤ 0xFFF := by
  rw [addrOf, BitVec.toNat_setWidth]
  omega

/-- The target of JumpToV0Address: at most 0xFFF + 0xFF (R13, R123). -/
theorem addrOf_add_wideV_toNat_le (s : State) (nnn : Addr12) (x : Nibble) :
    (addrOf nnn + s.wideV x).toNat ≤ 0x10FE := by
  simp only [addrOf, State.wideV, BitVec.toNat_add, BitVec.toNat_setWidth]
  omega

/-- From an address with room for an instruction, the normal update and a skip stay below the bound of R13. -/
theorem toNat_add_le {a d : Word} (ha : a.toNat ≤ 0xFFE) (hd : d.toNat ≤ 4) : (a + d).toNat ≤ 0x10FE := by
  rw [BitVec.toNat_add]
  omega

theorem State.pcNext_toNat_le {s : State} (h : s.pc.toNat ≤ 0xFFE) : s.pcNext.toNat ≤ 0x10FE :=
  toNat_add_le h (by decide)

theorem State.pcSkip_toNat_le {s : State} (h : s.pc.toNat ≤ 0xFFE) (c : Bool) : (s.pcSkip c).toNat ≤ 0x10FE := by
  cases c with
  | false => exact toNat_add_le h (by decide)
  | true => exact toNat_add_le h (by decide)

/-- Every instruction that was fetched, with return addresses a Call can push, leaves `pc` at most 0x10FE (R13). The
cases named are those that do not always end at `pc + 2` or may fault. -/
theorem exec_pc_le {i : Instr} {s t : State} (h : exec i s = .next t) (hpc : s.pc.toNat ≤ 0xFFE)
    (hs : ∀ r ∈ s.stack, r.toNat ≤ 0xFFE) : t.pc.toNat ≤ 0x10FE := by
  have hnext := State.pcNext_toNat_le hpc
  have hskip := State.pcSkip_toNat_le hpc
  have haddr (nnn : Addr12) : (addrOf nnn).toNat ≤ 0x10FE := (addrOf_toNat_le nnn).trans (by decide)
  cases i with
  | ret =>
    obtain ⟨-, rfl⟩ | ⟨r, rest, hst, rfl⟩ := execRet_next h
    · exact hnext
    · exact toNat_add_le (hs r (by simp [hst])) (by decide)
  | jump nnn => cases h; exact haddr nnn
  | call nnn => obtain ⟨-, rfl⟩ := execCall_next h; exact haddr nnn
  | jumpToV0Address nnn => cases h; exact addrOf_add_wideV_toNat_le s nnn 0
  | skipEqConst | skipNeConst | skipEqReg | skipNeReg => cases h; exact hskip _
  | skipIfPressed | skipIfNotPressed => obtain ⟨k, -, rfl⟩ := commit_next.mp h; exact hskip _
  | waitForPress x =>
    obtain ⟨k, -, rfl⟩ := commit_next.mp h
    rw [State.retire_pc]
    split
    · exact hnext
    · omega
  | drawSprite | setBCD | dumpReg | loadReg => obtain ⟨a, -, rfl⟩ := commit_next.mp h; exact hnext
  | _ => cases h; exact hnext

/-- Executing a fetched instruction keeps the invariant. -/
theorem exec_inv {i : Instr} {s t : State} (h : exec i s = .next t) (hpc : s.pc.toNat ≤ 0xFFE) (hs : s.Inv) :
    t.Inv := by
  obtain ⟨hmem, hcfg, hfit, hret, -⟩ := hs
  refine ⟨exec_mem_wf h hmem, ?_, exec_stackFits h hfit, exec_returnAddresses h hpc hret, exec_pc_le h hpc hret⟩
  rw [(exec_frame h).cfg]
  exact hcfg

/-- Settles O15: the fetch bounds `pc` by 0xFFE, and from there an instruction keeps the invariant and a skipped
unrecognized word only moves `pc` by 2. -/
theorem everyStepKeepsTheInvariant : Obligations.EveryStepKeepsTheInvariant := by
  intro s t hs h
  obtain ⟨w, hw, ⟨i, u, -, hu, rfl⟩ | ⟨-, -, rfl⟩⟩ := step_next h
  · have hinv : u.Inv := exec_inv hu (State.fetch_ok hw).1 hs
    exact hinv
  · obtain ⟨hmem, hcfg, hfit, hret, -⟩ := hs
    exact ⟨hmem, hcfg, hfit, hret, State.pcNext_toNat_le (State.fetch_ok hw).1⟩

/-! ## Which instructions touch what -/

/-- Settles O18: the frame of `exec` for memory. -/
theorem onlySetBCDAndDumpRegWriteMemory : Obligations.OnlySetBCDAndDumpRegWriteMemory := by
  intro i s t hi h a
  rw [(exec_frame h).mem hi]

/-- Settles O19: the frame of `exec` for the framebuffer. -/
theorem onlyDisplayInstructionsWriteTheScreen : Obligations.OnlyDisplayInstructionsWriteTheScreen := by
  intro i s t hi h k
  rw [(exec_frame h).fb hi]

/-- Settles O20: the frame of `exec` for the stack, and what Call and Return make of it. -/
theorem onlyCallAndReturnTouchTheStack : Obligations.OnlyCallAndReturnTouchTheStack := by
  intro i s t h
  refine ⟨(exec_frame h).stack, ?_, ?_⟩
  · rintro ⟨nnn, rfl⟩
    obtain ⟨-, rfl⟩ := execCall_next h
    rfl
  · rintro rfl
    exact execRet_stack h

/-- Settles O21: the frame of `exec` for `I`. -/
theorem onlyIndexInstructionsWriteI : Obligations.OnlyIndexInstructionsWriteI := fun _ _ _ hi h =>
  (exec_frame h).I hi

/-- Settles O22: the frame of `exec` for VF. -/
theorem vfIsWrittenOnlyWhereListed : Obligations.VFIsWrittenOnlyWhereListed := fun _ _ _ hi h =>
  (exec_frame h).readVF hi

/-! ## Which instructions read the inputs -/

/-- An outcome with other inputs in its next state; a fault and a refusal carry none. -/
def presentEnd (keys : BitVec 16) (rnd : Byte) :
    Host.Outcome State Fault Refusal → Host.Outcome State Fault Refusal
  | .next t => .next (t.present keys rnd)
  | .fault f => .fault f
  | .refused q => .refused q

/-- A commit whose writes do not depend on the inputs. -/
theorem commit_presentEnd {α : Type} {keys : BitVec 16} {rnd : Byte} (r : Except Fault α) {k k' : α → State}
    (h : ∀ a, k' a = (k a).present keys rnd) : commit r k' = presentEnd keys rnd (commit r k) := by
  cases r with
  | error f => rfl
  | ok a => exact congrArg Host.Outcome.next (h a)

theorem commit_map {α β : Type} (f : α → β) (r : Except Fault α) (k : β → State) :
    commit (r.map f) k = commit r fun a => k (f a) := by
  cases r with
  | error f => rfl
  | ok a => rfl

/-- A block read does not look at the inputs. -/
theorem State.memReadBlock_present (s : State) (keys : BitVec 16) (rnd : Byte) (n : Nat) :
    ∀ base, (s.present keys rnd).memReadBlock base n = s.memReadBlock base n := by
  induction n with
  | zero => intro base; rfl
  | succ n ih =>
    intro base
    rw [State.memReadBlock, State.memReadBlock, ih]
    rfl

/-- A block write does not look at the inputs, and carries them along. -/
theorem State.memWriteBlock_present (keys : BitVec 16) (rnd : Byte) (bytes : List Byte) : ∀ (s : State) (base : Nat),
    (s.present keys rnd).memWriteBlock base bytes
      = (s.memWriteBlock base bytes).map fun t => t.present keys rnd := by
  induction bytes with
  | nil => intro s base; rfl
  | cons b rest ih =>
    intro s base
    by_cases hb : base < Config.memorySize
    · simp only [State.memWriteBlock, State.memWrite, if_pos hb]
      exact ih (s.setMem (s.mem.write base b)) (base + 1)
    · simp only [State.memWriteBlock, State.memWrite, if_neg hb]
      rfl

/-- The block write of LoadReg carries the inputs along. -/
theorem State.writeVs_present (keys : BitVec 16) (rnd : Byte) (bytes : List Byte) : ∀ (s : State) (k : Nat),
    (s.present keys rnd).writeVs k bytes = (s.writeVs k bytes).present keys rnd := by
  induction bytes with
  | nil => intro s k; rfl
  | cons b rest ih => intro s k; exact ih (s.writeV (BitVec.ofNat 4 k) b) (k + 1)

/-- Inputs an instruction does not read are carried along unseen (R21, R24). The cases named read an input, or go
through a result that may be a fault. -/
theorem exec_present {i : Instr} {s : State} {keys : BitVec 16} {rnd : Byte}
    (hk : readsKeys i = false ∨ keys = s.keys) (hr : readsRnd i = false ∨ rnd = s.rnd) :
    exec i (s.present keys rnd) = presentEnd keys rnd (exec i s) := by
  have keysRead (hi : readsKeys i = true) : keys = s.keys := hk.resolve_left (by simp [hi])
  cases i with
  | ret =>
    show execRet (s.present keys rnd) = presentEnd keys rnd (execRet s)
    cases hs : s.stack <;> simp only [execRet, State.pop, State.present_stack, hs] <;> rfl
  | call nnn => exact commit_presentEnd (s.push s.pc) fun st => rfl
  | bitwiseRandom x kk =>
    obtain rfl : rnd = s.rnd := hr.resolve_left (by simp [readsRnd])
    rfl
  | skipIfPressed x | skipIfNotPressed x | waitForPress x =>
    obtain rfl := keysRead rfl
    exact commit_presentEnd (s.keyIndex x) fun k => rfl
  | drawSprite x y n =>
    show commit ((s.present keys rnd).memReadBlock s.I.toNat n.toNat) _ = _
    rw [State.memReadBlock_present]
    exact commit_presentEnd _ fun rows => rfl
  | setBCD x =>
    show commit ((s.tickTimers.present keys rnd).memWriteBlock s.I.toNat (bcdDigits (s.readV x))) _ = _
    rw [State.memWriteBlock_present, commit_map]
    exact commit_presentEnd _ fun u => rfl
  | dumpReg x =>
    show commit ((s.tickTimers.present keys rnd).memWriteBlock s.I.toNat (s.firstVs (x.toNat + 1))) _ = _
    rw [State.memWriteBlock_present, commit_map]
    exact commit_presentEnd _ fun u => rfl
  | loadReg x =>
    show commit ((s.present keys rnd).memReadBlock s.I.toNat (x.toNat + 1)) _ = _
    rw [State.memReadBlock_present]
    refine commit_presentEnd _ fun bytes => ?_
    show (((s.tickTimers.present keys rnd).writeVs 0 bytes).setI (s.advancedI x)).retire s.pcNext = _
    rw [State.writeVs_present]
    rfl
  | _ => rfl

/-- Settles O24: `exec_present`, read off for each outcome. -/
theorem inputsAreReadOnlyWhereListed : Obligations.InputsAreReadOnlyWhereListed := by
  intro i s keys rnd hk hr
  rw [exec_present hk hr]
  cases exec i s with
  | next t => rfl
  | fault f => rfl
  | refused q => rfl

/-! ## Reset and the framebuffer port -/

/-- Settles O16: canonical memory, a legal depth, an empty stack, `pc` at 0x200. -/
theorem resetMeetsTheInvariant : Obligations.ResetMeetsTheInvariant :=
  ⟨Memory.reset_wf, by decide, fun d _ => Nat.zero_le d, fun r hr => absurd hr List.not_mem_nil, by decide⟩

/-- Every register is 0 after reset (R28, decision D13 of the spec). -/
@[simp] theorem State.reset_readV (r : Nibble) : State.reset.readV r = 0 := by
  simp [State.readV, State.reset]

/-- The reset memory lists nothing, so each byte reads as the reset contents. -/
@[simp] theorem State.reset_mem_read (a : Nat) : State.reset.mem.read a = initialByte a := rfl

/-- Settles O25: memory above the font and every framebuffer cell by their laws, the font's 80 bytes by evaluation. -/
theorem resetState : Obligations.ResetState := by
  have hfb (k : Nat) : State.reset.fb.cell k = false := FrameBuffer.cell_blank k
  exact ⟨rfl, rfl, State.reset_readV, rfl, rfl, rfl, hfb, by decide, fun a ha => initialByte_above_font ha, rfl, rfl,
    rfl, rfl⟩

/-- Cell `py * 64 + px` is column `px` of row `py` (R23). -/
theorem FrameBuffer.cell_row_column (fb : FrameBuffer) {px py : Nat} (hx : px < 64) (hy : py < 32) :
    fb.cell (py * 64 + px) = fb[py].getLsbD px := by
  have hrow : (py * 64 + px) / 64 = py := by omega
  have hcolumn : (py * 64 + px) % 64 = px := by omega
  simp [FrameBuffer.cell, hrow, hcolumn, hy]

/-- Settles O59: the port maps the cells over 0 to 2047. -/
theorem framebufferPortListsTheCells : Obligations.FramebufferPortListsTheCells := by
  intro s
  have hentry (k : Nat) (hk : k < 2048) : s.framebufferPort[k]? = some (s.fb.cell k) := by
    simp [State.framebufferPort, List.getElem?_range hk]
  refine ⟨by simp [State.framebufferPort], hentry, fun px py hx hy => ?_⟩
  rw [hentry _ (by omega), FrameBuffer.cell_row_column s.fb hx hy]

end Sys2Proof.Machine
end

section
/-! The family of 20_memory.md: the fetch past the end of memory, and a DumpReg read back by the fetch. -/

namespace Sys2Proof.Machine

/-! ## The fetch past the end (R41) -/

/-- The fetch names its first byte outside the 4096: the second one when `pc` is 0xFFF, `pc` itself above that. -/
theorem State.fetch_outside {s : State} (h : 0xFFE < s.pc.toNat) :
    s.fetch = .error (s.bounds .fetch (if s.pc.toNat = 0xFFF then 0x1000 else s.pc.toNat)) := by
  unfold State.fetch
  by_cases he : s.pc.toNat = 0xFFF
  · rw [if_neg (by omega), if_pos he, if_pos he]
  · rw [if_pos (by omega), if_neg he]

/-- A step whose fetch faults ends in that fault. -/
theorem step_of_fetch_error {s : State} {f : Fault} (h : s.fetch = .error f) : step s = .fault f := by
  rw [step, h]

/-- Settles O9: the fault of the fetch is the fault of the step. -/
theorem fetchPastTheEndFaults : Obligations.FetchPastTheEndFaults := fun _ h =>
  step_of_fetch_error (State.fetch_outside h)

/-! ## What DumpReg stores (R184) -/

/-- The whole of what DumpReg can do when it goes on: its block lies inside the 4096 bytes and holds V0 to VX. -/
theorem execDumpReg_next {x : Nibble} {s t : State} (h : execDumpReg x s = .next t) :
    s.I.toNat + x.toNat < Config.memorySize
      ∧ t = ((s.tickTimers.setMem (s.mem.writeAll s.I.toNat (s.firstVs (x.toNat + 1)))).setI
          (s.advancedI x)).retire s.pcNext := by
  obtain ⟨u, hu, rfl⟩ := commit_next.mp h
  obtain ⟨rfl, hbytes⟩ := State.memWriteBlock_next hu
  have hlen : (s.firstVs (x.toNat + 1)).length = x.toNat + 1 := State.firstVs_length s _ x.isLt
  refine ⟨?_, rfl⟩
  obtain hnil | hle := hbytes
  · rw [hnil] at hlen
    cases hlen
  · omega

/-- After DumpReg the byte at `I + r` is `V[r]`, for every register up to VX. -/
theorem execDumpReg_mem_read {x r : Nibble} {s t : State} (h : execDumpReg x s = .next t) (hr : r.toNat ≤ x.toNat) :
    t.mem.read (s.I.toNat + r.toNat) = s.readV r := by
  obtain ⟨-, rfl⟩ := execDumpReg_next h
  have hlen : (s.firstVs (x.toNat + 1)).length = x.toNat + 1 := State.firstVs_length s _ x.isLt
  have hread := Memory.read_writeAll (s.firstVs (x.toNat + 1)) s.mem s.I.toNat (s.I.toNat + r.toNat)
  have hbyte := State.firstVs_getElem s (x.toNat + 1) r (by omega)
  rw [dif_pos (by omega)] at hread
  simpa [hbyte] using hread

/-- Settles O56: the next step fetches at `pc + 2 = I`, where DumpReg put V0 and, `X` not being 0, V1. -/
theorem storesAreSeenByTheNextFetch : Obligations.StoresAreSeenByTheNextFetch := by
  intro x s t _ hI hx h
  have hx1 : 1 ≤ x.toNat := Nat.one_le_iff_ne_zero.mpr fun h0 => hx (BitVec.eq_of_toNat_eq h0)
  obtain ⟨hin, ht⟩ := execDumpReg_next h
  have hpc : t.pc = s.I := by rw [ht, hI]; rfl
  have h0 : t.mem.read s.I.toNat = s.readV 0 := execDumpReg_mem_read (r := 0) h (Nat.zero_le _)
  have h1 : t.mem.read (s.I.toNat + 1) = s.readV 1 := execDumpReg_mem_read (r := 1) h hx1
  have hfit : t.pc.toNat ≤ 0xFFE := by
    rw [hpc]
    simp only [Config.memorySize] at hin
    omega
  rw [State.fetch_inside hfit, State.fetchedWord, hpc, h0, h1, wordOfBytes]

end Sys2Proof.Machine
end

section
/-! The family of 30_encoding.md: which words the decoder recognises, what it gives for each, and the encoder and the
opcode map against it. -/

namespace Sys2Proof

/-! ## The encoder against the decoder -/

/-- Decoding the canonical word of an instruction gives it back. The cases are grouped by the dispatch that reads the
word: the low byte for `n0` 0, E and F, `n3` for `n0 = 8`, and `n0` alone otherwise. -/
theorem decode_encode (i : Instr) : decode (encode i) = some i := by
  cases i with
  | clearDisplay | ret => simp [encode, decode, decodeGroup0]
  | assign | or | and | xor | add | subtract | shiftRight | reduce | shiftLeft => simp [encode, decode, decodeGroup8]
  | skipIfPressed | skipIfNotPressed => simp [encode, decode, decodeGroupE]
  | loadDelay | waitForPress | setDelay | setSound | addOffset | setMemoryForFont | setBCD | dumpReg | loadReg =>
    simp [encode, decode, decodeGroupF]
  | _ => simp [encode, decode]

/-- Settles O1: `decode_encode`. -/
theorem decodeEncodeRoundTrip : Obligations.DecodeEncodeRoundTrip := decode_encode

/-- R73: which nibble of a canonical word is 0. -/
theorem canonicalWord_iff {w : Word} :
    canonicalWord w = true
      ↔ (fieldN0 w = 0 → fieldX w = 0) ∧ (fieldN0 w = 5 ∨ fieldN0 w = 9 → fieldN w = 0) := by
  unfold canonicalWord fieldN0 fieldX fieldN
  split
  · next h0 => simp [h0]
  · next h0 => simp [h0]
  · next h0 => simp [h0]
  · next h0 h5 h9 => exact iff_of_true rfl ⟨fun h => absurd h h0, fun h => absurd h (not_or.mpr ⟨h5, h9⟩)⟩

theorem canonicalWord_encode (i : Instr) : canonicalWord (encode i) = true := by
  rw [canonicalWord_iff]
  cases i <;> simp [encode]

/-- Settles O2: of the forms a decodable word has, the ones with an ignored nibble are canonical with that nibble 0
only. -/
theorem canonicalWordsAreEncodings : Obligations.CanonicalWordsAreEncodings := by
  refine ⟨canonicalWord_encode, fun w i hc h => ?_⟩
  obtain ⟨hX, hN⟩ := canonicalWord_iff.mp hc
  obtain rfl | ⟨n, rfl, rfl⟩ | ⟨n, rfl, rfl⟩ | ⟨x, y, n, rfl, rfl⟩ | ⟨x, y, n, rfl, rfl⟩ := decode_cases h
  · rfl
  · obtain rfl : n = 0 := by simpa using hX
    rfl
  · obtain rfl : n = 0 := by simpa using hX
    rfl
  · obtain rfl : n = 0 := by simpa using hN
    rfl
  · obtain rfl : n = 0 := by simpa using hN
    rfl

/-! ## The unrecognized words (R74) -/

theorem decodeGroup0_eq_none_iff {w : Word} : decodeGroup0 w = none ↔ fieldKK w ∉ ([0xE0, 0xEE] : List Byte) := by
  unfold decodeGroup0
  split <;> simp_all

theorem decodeGroup8_eq_none_iff {w : Word} :
    decodeGroup8 w = none ↔ fieldN w ∈ ([0x8, 0x9, 0xA, 0xB, 0xC, 0xD, 0xF] : List Nibble) := by
  unfold decodeGroup8
  split
  case h_10 =>
    rw [eq_self, true_iff]
    generalize fieldN w = n at *
    revert n
    decide
  all_goals
    next h => simp [h]

theorem decodeGroupE_eq_none_iff {w : Word} : decodeGroupE w = none ↔ fieldKK w ∉ ([0x9E, 0xA1] : List Byte) := by
  unfold decodeGroupE
  split <;> simp_all

theorem decodeGroupF_eq_none_iff {w : Word} :
    decodeGroupF w = none
      ↔ fieldKK w ∉ ([0x07, 0x0A, 0x15, 0x18, 0x1E, 0x29, 0x33, 0x55, 0x65] : List Byte) := by
  unfold decodeGroupF
  split <;> simp_all

/-- The dispatch on `n0` (R67): four values have a secondary dispatch, every other word decodes. -/
theorem decode_dispatch (w : Word) :
    (fieldN0 w = 0x0 ∧ decode w = decodeGroup0 w) ∨ (fieldN0 w = 0x8 ∧ decode w = decodeGroup8 w)
      ∨ (fieldN0 w = 0xE ∧ decode w = decodeGroupE w) ∨ (fieldN0 w = 0xF ∧ decode w = decodeGroupF w)
      ∨ (fieldN0 w ∉ ([0x0, 0x8, 0xE, 0xF] : List Nibble) ∧ decode w ≠ none) := by
  unfold decode
  split
  case h_1 h => exact .inl ⟨h, rfl⟩
  case h_9 h => exact .inr (.inl ⟨h, rfl⟩)
  case h_15 h => exact .inr (.inr (.inl ⟨h, rfl⟩))
  case h_16 =>
    have h : fieldN0 w = 0xF := by
      generalize fieldN0 w = n at *
      revert n
      decide
    exact .inr (.inr (.inr (.inl ⟨h, rfl⟩)))
  all_goals
    next h => simp [h]

/-- Settles O4: the groups are the secondary dispatches, each with the values it does not list. -/
theorem unrecognizedWordsAreFourGroups : Obligations.UnrecognizedWordsAreFourGroups := by
  intro w
  obtain ⟨h0, hd⟩ | ⟨h0, hd⟩ | ⟨h0, hd⟩ | ⟨h0, hd⟩ | ⟨h0, hd⟩ := decode_dispatch w
  · simp [hd, h0, decodeGroup0_eq_none_iff]
  · simp [hd, h0, decodeGroup8_eq_none_iff]
  · simp [hd, h0, decodeGroupE_eq_none_iff]
  · simp [hd, h0, decodeGroupF_eq_none_iff]
  · simp only [List.mem_cons, List.not_mem_nil, or_false, not_or, BitVec.ofNat_eq_ofNat] at h0
    simp [hd, h0]

/-! ## The opcode map (R68) -/

theorem Row.accepts_iff {r : Row} {w : Word} : r.accepts w = true ↔ w &&& r.mask = r.pattern := beq_iff_eq

/-! A field that a row's mask examines is the field of the row's pattern. -/

theorem Row.fieldN0_pattern {r : Row} {w : Word} (h : r.accepts w = true) (hmask : fieldN0 r.mask = 0xF) :
    fieldN0 r.pattern = fieldN0 w := by
  have hand : fieldN0 (w &&& r.mask) = fieldN0 w &&& fieldN0 r.mask := BitVec.extractLsb'_and
  rw [← Row.accepts_iff.mp h, hand, hmask]
  exact BitVec.and_allOnes

theorem Row.fieldN_pattern {r : Row} {w : Word} (h : r.accepts w = true) (hmask : fieldN r.mask = 0xF) :
    fieldN r.pattern = fieldN w := by
  have hand : fieldN (w &&& r.mask) = fieldN w &&& fieldN r.mask := BitVec.extractLsb'_and
  rw [← Row.accepts_iff.mp h, hand, hmask]
  exact BitVec.and_allOnes

theorem Row.fieldKK_pattern {r : Row} {w : Word} (h : r.accepts w = true) (hmask : fieldKK r.mask = 0xFF) :
    fieldKK r.pattern = fieldKK w := by
  have hand : fieldKK (w &&& r.mask) = fieldKK w &&& fieldKK r.mask := BitVec.extractLsb'_and
  rw [← Row.accepts_iff.mp h, hand, hmask]
  exact BitVec.and_allOnes

/-- The kind code of an instruction numbers a row, and that row accepts its canonical word. -/
theorem tableRow : ∀ i : Instr, Laws.TableRow.Statement i
  | .clearDisplay => Laws.TableRow.clearDisplay
  | .ret => Laws.TableRow.ret
  | .jump nnn => Laws.TableRow.jump nnn
  | .call nnn => Laws.TableRow.call nnn
  | .skipEqConst x kk => Laws.TableRow.skipEqConst x kk
  | .skipNeConst x kk => Laws.TableRow.skipNeConst x kk
  | .skipEqReg x y => Laws.TableRow.skipEqReg x y
  | .loadConst x kk => Laws.TableRow.loadConst x kk
  | .addConst x kk => Laws.TableRow.addConst x kk
  | .assign x y => Laws.TableRow.assign x y
  | .or x y => Laws.TableRow.or x y
  | .and x y => Laws.TableRow.and x y
  | .xor x y => Laws.TableRow.xor x y
  | .add x y => Laws.TableRow.add x y
  | .subtract x y => Laws.TableRow.subtract x y
  | .shiftRight x y => Laws.TableRow.shiftRight x y
  | .reduce x y => Laws.TableRow.reduce x y
  | .shiftLeft x y => Laws.TableRow.shiftLeft x y
  | .skipNeReg x y => Laws.TableRow.skipNeReg x y
  | .setMemoryAddress nnn => Laws.TableRow.setMemoryAddress nnn
  | .jumpToV0Address nnn => Laws.TableRow.jumpToV0Address nnn
  | .bitwiseRandom x kk => Laws.TableRow.bitwiseRandom x kk
  | .drawSprite x y n => Laws.TableRow.drawSprite x y n
  | .skipIfPressed x => Laws.TableRow.skipIfPressed x
  | .skipIfNotPressed x => Laws.TableRow.skipIfNotPressed x
  | .loadDelay x => Laws.TableRow.loadDelay x
  | .waitForPress x => Laws.TableRow.waitForPress x
  | .setDelay x => Laws.TableRow.setDelay x
  | .setSound x => Laws.TableRow.setSound x
  | .addOffset x => Laws.TableRow.addOffset x
  | .setMemoryForFont x => Laws.TableRow.setMemoryForFont x
  | .setBCD x => Laws.TableRow.setBCD x
  | .dumpReg x => Laws.TableRow.dumpReg x
  | .loadReg x => Laws.TableRow.loadReg x

/-- A word that decodes is accepted by the row that the kind code numbers. -/
theorem row_accepts_of_decode {w : Word} {i : Instr} (h : decode w = some i) :
    ∃ r, opcodeRows[(kindCode i).toNat]? = some r ∧ r.accepts w = true := by
  obtain rfl | ⟨n, rfl, rfl⟩ | ⟨n, rfl, rfl⟩ | ⟨x, y, n, rfl, rfl⟩ | ⟨x, y, n, rfl, rfl⟩ := decode_cases h
  · exact Option.map_eq_some_iff.mp (tableRow i)
  · exact ⟨⟨0x00E0, 0xF0FF⟩, rfl, by simp [Row.accepts_iff, and_maskF0FF]⟩
  · exact ⟨⟨0x00EE, 0xF0FF⟩, rfl, by simp [Row.accepts_iff, and_maskF0FF]⟩
  · exact ⟨⟨0x5000, 0xF000⟩, rfl, by simp [Row.accepts_iff, and_maskF000]⟩
  · exact ⟨⟨0x9000, 0xF000⟩, rfl, by simp [Row.accepts_iff, and_maskF000]⟩

/-- Two rows of the opcode map differ in a bit that both examine. -/
theorem opcodeRows_patterns_differ : ∀ j k : Fin 34,
    opcodeRows[j].pattern &&& opcodeRows[k].mask = opcodeRows[k].pattern &&& opcodeRows[j].mask → j = k := by decide

/-- So no two rows of the opcode map accept the same word. -/
theorem opcodeRows_disjoint {j k : Nat} {r q : Row} {w : Word} (hr : opcodeRows[j]? = some r)
    (hq : opcodeRows[k]? = some q) (hrw : r.accepts w = true) (hqw : q.accepts w = true) : j = k := by
  have hmasks : r.pattern &&& q.mask = q.pattern &&& r.mask := by
    rw [← Row.accepts_iff.mp hrw, ← Row.accepts_iff.mp hqw]
    ac_rfl
  obtain ⟨hj, rfl⟩ := List.getElem?_eq_some_iff.mp hr
  obtain ⟨hk, rfl⟩ := List.getElem?_eq_some_iff.mp hq
  exact congrArg Fin.val (opcodeRows_patterns_differ ⟨j, hj⟩ ⟨k, hk⟩ hmasks)

/-- Every row examines `n0`, and of the rest what the secondary dispatch of its group examines (R69 to R72). -/
theorem opcodeRows_masks : ∀ r ∈ opcodeRows, fieldN0 r.mask = 0xF
    ∧ (fieldN0 r.pattern ∈ ([0x0, 0xE, 0xF] : List Nibble) → fieldKK r.mask = 0xFF)
    ∧ (fieldN0 r.pattern = 0x8 → fieldN r.mask = 0xF) := by decide

theorem decode_pattern_ne_none : ∀ r ∈ opcodeRows, decode r.pattern ≠ none := by decide

/-- A word that a row accepts decodes: were it in one of the four groups of R74, the row's pattern would be in the same
group, and the patterns decode. -/
theorem decode_ne_none_of_accepts {r : Row} {w : Word} (hr : r ∈ opcodeRows) (hw : r.accepts w = true) :
    decode w ≠ none := by
  obtain ⟨hmaskN0, hmaskKK, hmaskN⟩ := opcodeRows_masks r hr
  have hN0 : fieldN0 r.pattern = fieldN0 w := Row.fieldN0_pattern hw hmaskN0
  rw [hN0] at hmaskKK hmaskN
  have hKK (h0 : fieldN0 w ∈ ([0x0, 0xE, 0xF] : List Nibble)) : fieldKK r.pattern = fieldKK w :=
    Row.fieldKK_pattern hw (hmaskKK h0)
  have hN (h0 : fieldN0 w = 0x8) : fieldN r.pattern = fieldN w := Row.fieldN_pattern hw (hmaskN h0)
  refine fun h => decode_pattern_ne_none r hr ((unrecognizedWordsAreFourGroups r.pattern).mpr ?_)
  rw [hN0]
  obtain ⟨h0, hg⟩ | ⟨h0, hg⟩ | ⟨h0, hg⟩ | ⟨h0, hg⟩ := (unrecognizedWordsAreFourGroups w).mp h
  · exact .inl ⟨h0, by rwa [hKK (by simp [h0])]⟩
  · exact .inr (.inl ⟨h0, by rwa [hN h0]⟩)
  · exact .inr (.inr (.inl ⟨h0, by rwa [hKK (by simp [h0])]⟩))
  · exact .inr (.inr (.inr ⟨h0, by rwa [hKK (by simp [h0])]⟩))

/-- Settles O3: a word that a row accepts decodes, to an instruction whose row accepts it too, and that is the same
row. -/
theorem decodeIsTheMatchingRow : Obligations.DecodeIsTheMatchingRow := by
  intro w k r hr
  constructor
  · intro hw
    obtain ⟨i, h⟩ := Option.ne_none_iff_exists'.mp (decode_ne_none_of_accepts (List.mem_of_getElem? hr) hw)
    obtain ⟨q, hq, hqw⟩ := row_accepts_of_decode h
    exact ⟨i, h, opcodeRows_disjoint hq hr hqw hw⟩
  · rintro ⟨i, h, rfl⟩
    obtain ⟨q, hq, hqw⟩ := row_accepts_of_decode h
    obtain rfl : q = r := Option.some.inj (hq.symm.trans hr)
    exact hqw

/-! ## The ignored nibbles (R73, decision D21 of the spec) -/

/-! The four instructions whose words have an ignored nibble, each by the fields that are examined. -/

theorem decode_eq_clearDisplay_iff {w : Word} :
    decode w = some .clearDisplay ↔ fieldN0 w = 0x0 ∧ fieldKK w = 0xE0 := by
  constructor
  · intro h
    obtain rfl | ⟨n, rfl⟩ : w = encode .clearDisplay ∨ ∃ n, w = wordXK 0 n 0xE0 := by simpa using decode_cases h
    · simp [encode]
    · simp
  · rintro ⟨h0, hk⟩
    simp [decode, decodeGroup0, h0, hk]

theorem decode_eq_ret_iff {w : Word} : decode w = some .ret ↔ fieldN0 w = 0x0 ∧ fieldKK w = 0xEE := by
  constructor
  · intro h
    obtain rfl | ⟨n, rfl⟩ : w = encode .ret ∨ ∃ n, w = wordXK 0 n 0xEE := by simpa using decode_cases h
    · simp [encode]
    · simp
  · rintro ⟨h0, hk⟩
    simp [decode, decodeGroup0, h0, hk]

theorem decode_eq_skipEqReg_iff {w : Word} {x y : Nibble} :
    decode w = some (.skipEqReg x y) ↔ fieldN0 w = 0x5 ∧ fieldX w = x ∧ fieldY w = y := by
  constructor
  · intro h
    obtain rfl | ⟨n, rfl⟩ : w = encode (.skipEqReg x y) ∨ ∃ n, w = wordXYN 5 x y n := by simpa using decode_cases h
    · simp [encode]
    · simp
  · rintro ⟨h0, rfl, rfl⟩
    simp [decode, h0]

theorem decode_eq_skipNeReg_iff {w : Word} {x y : Nibble} :
    decode w = some (.skipNeReg x y) ↔ fieldN0 w = 0x9 ∧ fieldX w = x ∧ fieldY w = y := by
  constructor
  · intro h
    obtain rfl | ⟨n, rfl⟩ : w = encode (.skipNeReg x y) ∨ ∃ n, w = wordXYN 9 x y n := by simpa using decode_cases h
    · simp [encode]
    · simp
  · rintro ⟨h0, rfl, rfl⟩
    simp [decode, h0]

/-- Where the dispatch examines every nibble, an instruction is the meaning of its canonical word alone. -/
theorem decode_eq_some_iff_eq_encode {i : Instr} {w : Word}
    (hi : fieldN0 (encode i) ∉ ([0x0, 0x5, 0x9] : List Nibble)) : decode w = some i ↔ w = encode i := by
  constructor
  · intro h
    obtain hw | ⟨n, -, rfl⟩ | ⟨n, -, rfl⟩ | ⟨x, y, n, -, rfl⟩ | ⟨x, y, n, -, rfl⟩ := decode_cases h
    · exact hw
    all_goals simp [encode] at hi
  · rintro rfl
    exact decode_encode i

/-- Settles O5: the four instructions with an ignored nibble by their fields, every other by its canonical word. -/
theorem onlyIgnoredNibblesAreDropped : Obligations.OnlyIgnoredNibblesAreDropped := by
  intro w u i h
  cases i with
  | clearDisplay =>
    obtain ⟨h0, hk⟩ := decode_eq_clearDisplay_iff.mp h
    simp [decode_eq_clearDisplay_iff, h0, hk]
  | ret =>
    obtain ⟨h0, hk⟩ := decode_eq_ret_iff.mp h
    simp [decode_eq_ret_iff, h0, hk]
  | skipEqReg x y =>
    obtain ⟨h0, rfl, rfl⟩ := decode_eq_skipEqReg_iff.mp h
    simp [decode_eq_skipEqReg_iff, h0]
  | skipNeReg x y =>
    obtain ⟨h0, rfl, rfl⟩ := decode_eq_skipNeReg_iff.mp h
    simp [decode_eq_skipNeReg_iff, h0]
  | _ =>
    obtain rfl := (decode_eq_some_iff_eq_encode (by simp [encode])).mp h
    rw [decode_eq_some_iff_eq_encode (by simp [encode])]
    simp [encode]

/-! ## The decoder's ports (R65, R66, R79) -/

theorem kindCode_toNat_le (i : Instr) : (kindCode i).toNat ≤ 33 := by
  cases i <;> simp [kindCode]

theorem kindPort_of_some {w : Word} {i : Instr} (h : decode w = some i) : kindPort w = kindCode i := by
  rw [kindPort, h]

theorem kindPort_of_none {w : Word} (h : decode w = none) : kindPort w = 63 := by
  rw [kindPort, h]

theorem fieldX_toNat (w : Word) : (fieldX w).toNat = w.toNat / 256 % 16 := by
  simp [fieldX, Nat.shiftRight_eq_div_pow]

theorem fieldY_toNat (w : Word) : (fieldY w).toNat = w.toNat / 16 % 16 := by
  simp [fieldY, Nat.shiftRight_eq_div_pow]

theorem fieldN_toNat (w : Word) : (fieldN w).toNat = w.toNat % 16 := by
  simp [fieldN]

theorem fieldKK_toNat (w : Word) : (fieldKK w).toNat = w.toNat % 256 := by
  simp [fieldKK]

theorem fieldNNN_toNat (w : Word) : (fieldNNN w).toNat = w.toNat % 4096 := by
  simp [fieldNNN]

/-- Settles O6: each operand port is its field, and `kind` and `valid` follow the decoder's answer. -/
theorem decoderPortsCarryTheWord : Obligations.DecoderPortsCarryTheWord := by
  intro w
  refine ⟨fieldX_toNat w, fieldY_toNat w, fieldN_toNat w, fieldKK_toNat w, fieldNNN_toNat w, fun h => ?_,
    fun i h => ?_⟩
  · simp [decoderPorts, h, kindPort_of_none h]
  · simp [decoderPorts, h, kindPort_of_some h, kindCode_toNat_le]

/-! ## The spec's words -/

/-- Settles O7: by evaluation. -/
theorem specWordsDecode : Obligations.SpecWordsDecode := by
  unfold Obligations.SpecWordsDecode
  decide

end Sys2Proof
end

section
/-! The family of 40_step_cycle.md: a step as the decode of the word at `pc`, the policy on an unrecognized word, the
timers, and that nothing is refused. -/

namespace Sys2Proof.Machine

/-! ## The step, by what the word at `pc` decodes to (R100 to R102) -/

/-- Where `pc` can be fetched from and the word decodes, the step is the instruction and the end of a step. -/
theorem step_of_decode {s : State} {i : Instr} (hpc : s.pc.toNat ≤ 0xFFE) (hd : decode s.fetchedWord = some i) :
    step s = endStep (exec i s) := by
  simp only [step, State.fetch_inside hpc, runWord, hd]

/-- Where `pc` can be fetched from and the word is unrecognized, the step is the DecodeFault and the end of a step. -/
theorem step_of_unrecognized {s : State} (hpc : s.pc.toNat ≤ 0xFFE) (hd : decode s.fetchedWord = none) :
    step s = endStep (s.raiseDecode s.fetchedWord) := by
  simp only [step, State.fetch_inside hpc, runWord, hd]

/-- Settles O8: `step_of_decode`, read off for a next state and for a fault. -/
theorem stepRunsTheDecodedInstruction : Obligations.StepRunsTheDecodedInstruction := by
  intro s i hpc hd
  rw [step_of_decode hpc hd]
  exact ⟨fun t ht => endStep_next.mpr ⟨t, ht, rfl⟩, fun f hf => endStep_fault.mpr hf⟩

/-! ## The policy on an unrecognized word (R102, R208) -/

theorem State.raiseDecode_skip {s : State} (w : Word) (hp : s.cfg.decodeFaultPolicy = .skip) :
    s.raiseDecode w
      = .next { s with pc := s.pc + 2, faultOut := some (.decodeFault w s.pc), faultSeen := true } := by
  rw [State.raiseDecode, hp]

theorem State.raiseDecode_halt {s : State} (w : Word) (hp : s.cfg.decodeFaultPolicy = .halt) :
    s.raiseDecode w = .fault (.decodeFault w s.pc) := by
  rw [State.raiseDecode, hp]

/-- Settles O10: the outcome of `raiseDecode` under each policy; the end of a step only presents the next inputs. -/
theorem unrecognizedWordFollowsThePolicy : Obligations.UnrecognizedWordFollowsThePolicy := by
  intro s hpc hd
  rw [step_of_unrecognized hpc hd]
  constructor
  · intro hskip
    exact ⟨_, endStep_next.mpr ⟨_, State.raiseDecode_skip _ hskip, rfl⟩, rfl, rfl, rfl, fun _ => rfl, rfl, rfl, rfl,
      rfl, fun _ => rfl, fun _ => rfl, rfl⟩
  · intro hhalt
    exact endStep_fault.mpr (State.raiseDecode_halt _ hhalt)

/-! ## Nothing is refused (R68, R105) -/

theorem execRet_not_refused (s : State) (q : Refusal) : execRet s ≠ .refused q := by
  unfold execRet
  split
  · nofun
  · nofun

/-- The cases named are those whose meaning can end in two ways; every other one answers one next state outright. -/
theorem exec_not_refused (i : Instr) (s : State) (q : Refusal) : exec i s ≠ .refused q := by
  cases i with
  | ret => exact execRet_not_refused s q
  | call | drawSprite | skipIfPressed | skipIfNotPressed | waitForPress | setBCD | dumpReg | loadReg =>
    exact commit_not_refused _ _ q
  | _ => nofun

theorem State.raiseDecode_not_refused (s : State) (w : Word) (q : Refusal) : s.raiseDecode w ≠ .refused q := by
  cases hp : s.cfg.decodeFaultPolicy with
  | skip => rw [State.raiseDecode_skip w hp]; nofun
  | halt => rw [State.raiseDecode_halt w hp]; nofun

theorem endStep_refused {o : Host.Outcome State Fault Refusal} {q : Refusal} :
    endStep o = .refused q ↔ o = .refused q := by
  cases o <;> simp [endStep]

/-- A step ends in the fault of its fetch, in its instruction or in the DecodeFault, and none of them is a refusal. -/
theorem step_not_refused (s : State) (q : Refusal) : step s ≠ .refused q := by
  by_cases hpc : s.pc.toNat ≤ 0xFFE
  · cases hd : decode s.fetchedWord with
    | some i => rw [step_of_decode hpc hd, ne_eq, endStep_refused]; exact exec_not_refused i s q
    | none => rw [step_of_unrecognized hpc hd, ne_eq, endStep_refused]; exact s.raiseDecode_not_refused _ q
  · rw [step_of_fetch_error (State.fetch_outside (by omega))]
    nofun

/-- Settles O14: no instruction is refused, and so no step is. -/
theorem nothingIsRefused : Obligations.NothingIsRefused := ⟨exec_not_refused, step_not_refused⟩

/-! ## The timers (R19, R104, R174, R175) -/

/-- The delay timer after an instruction that goes on: the tick, which SetDelay overwrites. -/
def delayAfter (i : Instr) (s : State) : Byte :=
  match i with
  | .setDelay x => s.readV x
  | _ => tickDown s.delay

/-- The sound timer after an instruction that goes on: the tick, which SetSound overwrites. -/
def soundAfter (i : Instr) (s : State) : Byte :=
  match i with
  | .setSound x => s.readV x
  | _ => tickDown s.sound

/-- What every instruction makes of the two timers. The cases named are those whose meaning can end in two ways; every
other one answers one next state outright. -/
theorem exec_timers {i : Instr} {s t : State} (h : exec i s = .next t) :
    t.delay = delayAfter i s ∧ t.sound = soundAfter i s := by
  cases i with
  | ret =>
    obtain ⟨-, rfl⟩ | ⟨r, rest, -, rfl⟩ := execRet_next h
    · exact ⟨rfl, rfl⟩
    · exact ⟨rfl, rfl⟩
  | call | drawSprite | skipIfPressed | skipIfNotPressed | waitForPress =>
    obtain ⟨a, -, rfl⟩ := commit_next.mp h
    exact ⟨rfl, rfl⟩
  | setBCD | dumpReg =>
    obtain ⟨u, hu, rfl⟩ := commit_next.mp h
    obtain ⟨rfl, -⟩ := State.memWriteBlock_next hu
    exact ⟨rfl, rfl⟩
  | loadReg x =>
    obtain ⟨bytes, -, rfl⟩ := commit_next.mp h
    simp [delayAfter, soundAfter]
  | _ =>
    cases h
    exact ⟨rfl, rfl⟩

theorem delayAfter_ticked {i : Instr} (s : State) (hi : ∀ x, i ≠ .setDelay x) :
    TickedTimer s.delay (delayAfter i s) := by
  unfold delayAfter
  split
  · next x => exact absurd rfl (hi x)
  · exact tickDown_toNat s.delay

theorem soundAfter_ticked {i : Instr} (s : State) (hi : ∀ x, i ≠ .setSound x) :
    TickedTimer s.sound (soundAfter i s) := by
  unfold soundAfter
  split
  · next x => exact absurd rfl (hi x)
  · exact tickDown_toNat s.sound

/-- Settles O23: `exec_timers`, read off for the instruction that overwrites a timer and for all others. -/
theorem everyInstructionTicksTheTimers : Obligations.EveryInstructionTicksTheTimers := by
  intro i s t h
  obtain ⟨hdelay, hsound⟩ := exec_timers h
  rw [hdelay, hsound]
  refine ⟨delayAfter_ticked s, soundAfter_ticked s, ?_, ?_⟩
  · rintro x rfl
    rfl
  · rintro x rfl
    rfl

end Sys2Proof.Machine
end

section
/-! The family of 41_control_flow.md: Return, the jumps, Call, and the skips that compare registers. -/

namespace Sys2Proof.Machine

/-! ## What control flow leaves unchanged -/

/-- What Call and Return leave: everything but `pc` and the stack as before, both timers ticked. -/
def StackFrame (s t : State) : Prop :=
  SameRegs s t ∧ t.I = s.I ∧ SameMemory s t ∧ SameScreen s t ∧ Ticked s t ∧ Committed s t

/-- `ControlFrame` is `StackFrame` with the stack as before. -/
theorem controlFrame_iff {s t : State} : ControlFrame s t ↔ StackFrame s t ∧ t.stack = s.stack := by
  constructor
  · rintro ⟨hregs, hI, ⟨hmem, hscreen, hstack⟩, hticked, hcommitted⟩
    exact ⟨⟨hregs, hI, hmem, hscreen, hticked, hcommitted⟩, hstack⟩
  · rintro ⟨⟨hregs, hI, hmem, hscreen, hticked, hcommitted⟩, hstack⟩
    exact ⟨hregs, hI, ⟨hmem, hscreen, hstack⟩, hticked, hcommitted⟩

/-- A tick, a new stack and a new `pc` keep everything else (R104, R106). -/
theorem stackFrame_setStack_retire (s : State) (st : List Word) (target : Word) :
    StackFrame s ((s.tickTimers.setStack st).retire target) := by
  have hticked : Ticked s ((s.tickTimers.setStack st).retire target) :=
    ⟨tickDown_toNat s.delay, tickDown_toNat s.sound⟩
  exact ⟨fun _ => rfl, rfl, fun _ => rfl, fun _ => rfl, hticked, rfl, rfl, rfl, rfl, rfl, rfl⟩

/-- A tick and a new `pc` keep everything else: the case of `stackFrame_setStack_retire` that puts the same stack
back. -/
theorem controlFrame_retire (s : State) (target : Word) : ControlFrame s (s.tickTimers.retire target) :=
  controlFrame_iff.mpr ⟨stackFrame_setStack_retire s s.stack target, rfl⟩

/-! ## Return (R16, R120) -/

theorem execRet_of_empty {s : State} (h : s.stack = []) : execRet s = .next (s.tickTimers.retire s.pcNext) := by
  simp only [execRet, State.pop, h]

theorem execRet_of_cons {s : State} {r : Word} {rest : List Word} (h : s.stack = r :: rest) :
    execRet s = .next ((s.tickTimers.setStack rest).retire (r + 2)) := by
  simp only [execRet, State.pop, h]

/-- R73: the low byte makes the word a Return, whatever `n1` is. -/
theorem decode_wordXK_ret (n : Nibble) : decode (wordXK 0x0 n 0xEE) = some .ret :=
  decode_eq_ret_iff.mpr ⟨fieldN0_wordXK _ _ _, fieldKK_wordXK _ _ _⟩

/-- Settles O27: on an empty stack Return moves on and keeps the stack; otherwise it pops. -/
theorem returnPopsAndAddsTwo : Obligations.ReturnPopsAndAddsTwo := by
  refine ⟨decode_wordXK_ret, fun s => ?_⟩
  cases hs : s.stack with
  | nil =>
    obtain ⟨hframe, hstack⟩ := controlFrame_iff.mp (controlFrame_retire s s.pcNext)
    exact ⟨_, execRet_of_empty hs, fun _ => ⟨rfl, hstack.trans hs⟩, nofun, hframe⟩
  | cons r rest =>
    refine ⟨_, execRet_of_cons hs, nofun, ?_, stackFrame_setStack_retire s rest (r + 2)⟩
    rintro _ _ ⟨⟩
    exact ⟨BitVec.toNat_add r 2, rfl⟩

/-! ## Jump and JumpToV0Address (R121, R123) -/

theorem addrOf_toNat (nnn : Addr12) : (addrOf nnn).toNat = nnn.toNat :=
  BitVec.toNat_setWidth_of_le (by decide)

/-- Decision D4 of the spec: the sum of a 12-bit and an 8-bit number fits in 16 bits, so it is exact. -/
theorem addrOf_add_wideV_toNat (s : State) (nnn : Addr12) (x : Nibble) :
    (addrOf nnn + s.wideV x).toNat = nnn.toNat + (s.readV x).toNat := by
  have hwide : (s.wideV x).toNat = (s.readV x).toNat := BitVec.toNat_setWidth_of_le (by decide)
  rw [BitVec.toNat_add, addrOf_toNat, hwide]
  omega

/-- Settles O28: only `pc` moves, to the target. -/
theorem jumpSetsThePc : Obligations.JumpSetsThePc := fun nnn s =>
  ⟨decode_encode (.jump nnn), _, rfl, addrOf_toNat nnn, controlFrame_retire s _⟩

/-- Settles O30: only `pc` moves, to the exact sum. -/
theorem jumpToV0AddressAddsV0 : Obligations.JumpToV0AddressAddsV0 := fun nnn s =>
  ⟨decode_encode (.jumpToV0Address nnn), _, rfl, addrOf_add_wideV_toNat s nnn 0, controlFrame_retire s _⟩

/-! ## Call (R15, R122) -/

theorem State.push_of_room {s : State} (r : Word) (hroom : ∀ d, s.cfg.stackDepth = some d → s.stack.length < d) :
    s.push r = .ok (r :: s.stack) := by
  cases hp : s.push r with
  | ok st => rw [(State.push_ok hp).1]
  | error f =>
    obtain ⟨-, d, hd, hfull⟩ := State.push_error hp
    exact absurd (hroom d hd) hfull.not_gt

theorem State.push_of_full {s : State} {d : Nat} (r : Word) (hd : s.cfg.stackDepth = some d)
    (hfull : d ≤ s.stack.length) : s.push r = .error (s.bounds .stackOverflow r.toNat) := by
  cases hp : s.push r with
  | ok st => exact absurd ((State.push_ok hp).2 d hd) hfull.not_gt
  | error f => rw [(State.push_error hp).1]

/-- Settles O29: `commit` of the push, with room and with a full stack. -/
theorem callPushesItsAddress : Obligations.CallPushesItsAddress := by
  refine fun nnn s => ⟨decode_encode (.call nnn), fun hroom => ?_, fun d hd hfull => ?_⟩
  · exact ⟨_, commit_next.mpr ⟨_, State.push_of_room s.pc hroom, rfl⟩, addrOf_toNat nnn, rfl,
      stackFrame_setStack_retire s _ _⟩
  · exact commit_fault.mpr (State.push_of_full s.pc hd hfull)

/-! ## The skips that compare (R124 to R127) -/

/-- Equal bit vectors are equal as numbers, so the skip compares all 8 bits. -/
theorem State.pcSkip_beq (s : State) (a b : Byte) :
    s.pcSkip (a == b) = if a.toNat = b.toNat then s.pc + 4 else s.pc + 2 := by
  simp only [State.pcSkip, beq_iff_eq, BitVec.toNat_inj]

theorem State.pcSkip_bne (s : State) (a b : Byte) :
    s.pcSkip (a != b) = if a.toNat ≠ b.toNat then s.pc + 4 else s.pc + 2 := by
  simp only [State.pcSkip, bne_iff_ne, ne_eq, BitVec.toNat_inj]

/-- Settles O31: only `pc` moves, by the comparison with the immediate. -/
theorem constantSkipsCompareAllBits : Obligations.ConstantSkipsCompareAllBits := fun x kk s =>
  ⟨decode_encode (.skipEqConst x kk), decode_encode (.skipNeConst x kk),
    ⟨_, rfl, controlFrame_retire s _, s.pcSkip_beq _ _⟩, ⟨_, rfl, controlFrame_retire s _, s.pcSkip_bne _ _⟩⟩

/-- R73: no field but `n0`, `X` and `Y` is examined, so the low nibble may be anything. -/
theorem decode_wordXYN_skipEqReg (x y n : Nibble) : decode (wordXYN 0x5 x y n) = some (.skipEqReg x y) :=
  decode_eq_skipEqReg_iff.mpr ⟨fieldN0_wordXYN _ _ _ _, fieldX_wordXYN _ _ _ _, fieldY_wordXYN _ _ _ _⟩

theorem decode_wordXYN_skipNeReg (x y n : Nibble) : decode (wordXYN 0x9 x y n) = some (.skipNeReg x y) :=
  decode_eq_skipNeReg_iff.mpr ⟨fieldN0_wordXYN _ _ _ _, fieldX_wordXYN _ _ _ _, fieldY_wordXYN _ _ _ _⟩

/-- Settles O32: only `pc` moves, by the comparison of the two registers. -/
theorem registerSkipsCompareTwoRegisters : Obligations.RegisterSkipsCompareTwoRegisters := fun x y n s =>
  ⟨decode_wordXYN_skipEqReg x y n, decode_wordXYN_skipNeReg x y n,
    ⟨_, rfl, controlFrame_retire s _, s.pcSkip_beq _ _⟩, ⟨_, rfl, controlFrame_retire s _, s.pcSkip_bne _ _⟩⟩

end Sys2Proof.Machine
end

section
/-! The family of 42_load_alu.md: loads, arithmetic, logic, shifts and the random byte. Twelve instructions end in one
of two states: a result in `V[x]`, or a result in `V[x]` and then a flag in VF. -/

namespace Sys2Proof.Machine

/-! ## The two ways to end -/

/-- The next state of an instruction whose only result is `b` in `V[x]` (R140 to R145, R155). -/
def State.retireResult (s : State) (x : Nibble) (b : Byte) : State := (s.tickTimers.writeV x b).retire s.pcNext

/-- The next state of an instruction with the result `b` in `V[x]` and the flag `c` in VF (R150 to R154). -/
def State.retireFlagged (s : State) (x : Nibble) (b : Byte) (c : Bool) : State :=
  (s.tickTimers.writeWithFlag x b c).retire s.pcNext

/-- A tick, `pc + 2` and any new register file keep everything else (R104, R106). -/
theorem registerFrame_retire (s : State) (regs : Vector Byte 16) :
    RegisterFrame s { s.tickTimers.retire s.pcNext with v := regs } := by
  obtain ⟨-, hI, hstorage, hticked, hcommitted⟩ := controlFrame_retire s s.pcNext
  exact ⟨hI, rfl, hstorage, hticked, hcommitted⟩

theorem registerFrame_retireResult (s : State) (x : Nibble) (b : Byte) : RegisterFrame s (s.retireResult x b) :=
  registerFrame_retire s _

theorem registerFrame_retireFlagged (s : State) (x : Nibble) (b : Byte) (c : Bool) :
    RegisterFrame s (s.retireFlagged x b c) :=
  registerFrame_retire s _

@[simp] theorem State.readV_retireResult (s : State) (x y : Nibble) (b : Byte) :
    (s.retireResult x b).readV y = if y = x then b else s.readV y :=
  s.tickTimers.readV_writeV x y b

@[simp] theorem State.readV_retireFlagged (s : State) (x y : Nibble) (b : Byte) (c : Bool) :
    (s.retireFlagged x b c).readV y = if y = vf then flagByte c else if y = x then b else s.readV y :=
  s.tickTimers.readV_writeWithFlag x y b c

theorem State.readV_retireResult_self (s : State) (x : Nibble) (b : Byte) : (s.retireResult x b).readV x = b := by
  rw [State.readV_retireResult, if_pos rfl]

theorem sameRegsBut_retireResult (s : State) (x : Nibble) (b : Byte) : SameRegsBut x s (s.retireResult x b) := by
  intro r hr
  rw [State.readV_retireResult, if_neg hr]

theorem sameRegsButFlag_retireFlagged (s : State) (x : Nibble) (b : Byte) (c : Bool) :
    SameRegsButFlag x s (s.retireFlagged x b c) := by
  intro r hr hvf
  rw [State.readV_retireFlagged, if_neg hvf, if_neg hr]

/-! ## Loads, wrapping addition, logic, the random byte (R140 to R145, R155) -/

/-- Settles O33: the result is the immediate. -/
theorem loadConstWritesTheImmediate : Obligations.LoadConstWritesTheImmediate := fun x kk s =>
  ⟨decode_encode (.loadConst x kk), s.retireResult x kk, rfl, s.readV_retireResult_self x kk,
    sameRegsBut_retireResult s x kk, registerFrame_retireResult s x kk⟩

/-- Settles O34: the result is the sum of two bytes as a byte, so the sum modulo 256. -/
theorem addConstWraps : Obligations.AddConstWraps := by
  refine fun x kk s => ⟨decode_encode (.addConst x kk), s.retireResult x (s.readV x + kk), rfl, ?_,
    sameRegsBut_retireResult s x _, registerFrame_retireResult s x _⟩
  rw [State.readV_retireResult_self]
  exact BitVec.toNat_add (s.readV x) kk

/-- What Or, And, Xor and BitwiseRandom share: `V[x]` reads bit by bit as the result. -/
theorem retireResult_bits (s : State) (x : Nibble) {r : Byte} {f : Nat → Bool} (hr : ∀ b, r.getLsbD b = f b) :
    SameRegsBut x s (s.retireResult x r) ∧ RegisterFrame s (s.retireResult x r)
      ∧ ∀ b, b < 8 → ((s.retireResult x r).readV x).getLsbD b = f b := by
  refine ⟨sameRegsBut_retireResult s x r, registerFrame_retireResult s x r, fun b _ => ?_⟩
  rw [State.readV_retireResult_self, hr]

/-- Settles O35: Assign copies the operand, the other three are `retireResult_bits`. -/
theorem logicOperationsWorkBitwise : Obligations.LogicOperationsWorkBitwise := by
  refine fun x y s => ⟨⟨decode_encode (.assign x y), decode_encode (.or x y), decode_encode (.and x y),
    decode_encode (.xor x y)⟩, ?assign, ?or, ?and, ?xor⟩
  case assign =>
    exact ⟨s.retireResult x (s.readV y), rfl, s.readV_retireResult_self x _, sameRegsBut_retireResult s x _,
      registerFrame_retireResult s x _⟩
  case or => exact ⟨_, rfl, retireResult_bits s x fun _ => BitVec.getLsbD_or⟩
  case and => exact ⟨_, rfl, retireResult_bits s x fun _ => BitVec.getLsbD_and⟩
  case xor => exact ⟨_, rfl, retireResult_bits s x fun _ => BitVec.getLsbD_xor⟩

/-- Settles O41: `retireResult_bits` of the mask, whatever the input byte. -/
theorem bitwiseRandomMasksTheInput : Obligations.BitwiseRandomMasksTheInput := fun x kk s =>
  ⟨decode_encode (.bitwiseRandom x kk), _, rfl, retireResult_bits s x fun _ => BitVec.getLsbD_and⟩

/-! ## Results and flags as numbers (R150 to R154) -/

theorem flagIs_flagByte {c : Bool} {p : Prop} (h : c = true ↔ p) : flagIs (flagByte c) p := by
  constructor
  · intro hp
    rw [h.mpr hp]
    rfl
  · intro hp
    rw [Bool.eq_false_iff.mpr (mt h.mp hp)]
    rfl

theorem carryOut_iff {a b : Byte} : carryOut a b = true ↔ 255 < a.toNat + b.toNat := decide_eq_true_iff

theorem exceeds_iff {a b : Byte} : exceeds a b = true ↔ a.toNat > b.toNat := decide_eq_true_iff

theorem bitOutRight_iff {b : Byte} : bitOutRight b = true ↔ b.toNat % 2 = 1 := by
  rw [bitOutRight, BitVec.getLsbD, Nat.testBit_zero, decide_eq_true_iff]

/-- Bit 7 of a byte is its top bit. -/
theorem bitOutLeft_iff {b : Byte} : bitOutLeft b = true ↔ 128 ≤ b.toNat := by
  have hmsb : bitOutLeft b = b.msb := (BitVec.msb_eq_getLsbD_last b).symm
  rw [hmsb, BitVec.msb_eq_decide, decide_eq_true_iff]

theorem byte_toNat_sub (a b : Byte) : (a - b).toNat = (a.toNat + 256 - b.toNat) % 256 := by
  rw [BitVec.toNat_sub]
  omega

theorem byte_toNat_shiftRight_one (b : Byte) : (b >>> 1).toNat = b.toNat / 2 := by
  rw [BitVec.toNat_ushiftRight, Nat.shiftRight_one]

theorem byte_toNat_shiftLeft_one (b : Byte) : (b <<< 1).toNat = b.toNat * 2 % 256 := by
  rw [BitVec.toNat_shiftLeft, Nat.shiftLeft_eq]

/-! ## Arithmetic and shifts with a flag (R110, R150 to R154) -/

/-- What the five flag-writing instructions share. Decision D8 of the spec: the flag is written last, so `V[x]` is the
result only when `x` is not F, and VF is the flag in any case. -/
theorem retireFlagged_effect (s : State) (x : Nibble) {r : Byte} {c : Bool} {n : Nat} {p : Prop} (hr : r.toNat = n)
    (hc : c = true ↔ p) :
    (x ≠ vf → ((s.retireFlagged x r c).readV x).toNat = n) ∧ flagIs ((s.retireFlagged x r c).readV vf) p
      ∧ SameRegsButFlag x s (s.retireFlagged x r c) ∧ RegisterFrame s (s.retireFlagged x r c) := by
  refine ⟨fun hx => ?_, ?_, sameRegsButFlag_retireFlagged s x r c, registerFrame_retireFlagged s x r c⟩
  · rw [State.readV_retireFlagged, if_neg hx, if_pos rfl, hr]
  · rw [State.readV_retireFlagged, if_pos rfl]
    exact flagIs_flagByte hc

/-- Settles O36: the sum and its carry. -/
theorem addWritesSumAndCarry : Obligations.AddWritesSumAndCarry := fun x y s =>
  ⟨decode_encode (.add x y), _, rfl, retireFlagged_effect s x (BitVec.toNat_add _ _) carryOut_iff⟩

/-- Settles O37: the difference and the strict comparison. -/
theorem subtractWritesDifferenceAndFlag : Obligations.SubtractWritesDifferenceAndFlag := fun x y s =>
  ⟨decode_encode (.subtract x y), _, rfl, retireFlagged_effect s x (byte_toNat_sub _ _) exceeds_iff⟩

/-- Settles O38: half of `V[y]` and its bit 0. -/
theorem shiftRightShiftsTheSecondRegister : Obligations.ShiftRightShiftsTheSecondRegister := fun x y s =>
  ⟨decode_encode (.shiftRight x y), _, rfl, retireFlagged_effect s x (byte_toNat_shiftRight_one _) bitOutRight_iff⟩

/-- Settles O39: Subtract with the operands exchanged. -/
theorem reduceWritesDifferenceAndFlag : Obligations.ReduceWritesDifferenceAndFlag := fun x y s =>
  ⟨decode_encode (.reduce x y), _, rfl, retireFlagged_effect s x (byte_toNat_sub _ _) exceeds_iff⟩

/-- Settles O40: twice `V[y]` and its bit 7. -/
theorem shiftLeftShiftsTheSecondRegister : Obligations.ShiftLeftShiftsTheSecondRegister := fun x y s =>
  ⟨decode_encode (.shiftLeft x y), _, rfl, retireFlagged_effect s x (byte_toNat_shiftLeft_one _) bitOutLeft_iff⟩

end Sys2Proof.Machine
end

section
/-! The family of 43_display.md: ClearDisplay, what DrawSprite makes of the screen and of VF, and the faults of the
memory blocks. -/

namespace Sys2Proof.Machine

/-! ## What the display instructions leave unchanged -/

/-- What ClearDisplay and DrawSprite leave: everything but the registers and the framebuffer as before, both timers
ticked, `pc` plus 2. -/
def DisplayFrame (s t : State) : Prop :=
  t.I = s.I ∧ t.pc = s.pc + 2 ∧ SameMemory s t ∧ t.stack = s.stack ∧ Ticked s t ∧ Committed s t

/-- A tick, `pc + 2`, any new register file and any new framebuffer keep everything else (R104, R106). -/
theorem displayFrame_retire (s : State) (regs : Vector Byte 16) (screen : FrameBuffer) :
    DisplayFrame s { s.tickTimers.retire s.pcNext with v := regs, fb := screen } := by
  obtain ⟨-, hI, ⟨hmem, -, hstack⟩, hticked, hcommitted⟩ := controlFrame_retire s s.pcNext
  exact ⟨hI, rfl, hmem, hstack, hticked, hcommitted⟩

/-! ## ClearDisplay (R160) -/

/-- R73: the low byte makes the word a ClearDisplay, whatever `n1` is. -/
theorem decode_wordXK_clearDisplay (n : Nibble) : decode (wordXK 0x0 n 0xE0) = some .clearDisplay :=
  decode_eq_clearDisplay_iff.mpr ⟨fieldN0_wordXK _ _ _, fieldKK_wordXK _ _ _⟩

/-- Settles O42: the new framebuffer is the blank one, the register file the old one. -/
theorem clearDisplayZeroesTheScreen : Obligations.ClearDisplayZeroesTheScreen :=
  ⟨decode_wordXK_clearDisplay, fun s =>
    ⟨_, rfl, FrameBuffer.cell_blank, fun _ => rfl, displayFrame_retire s s.v FrameBuffer.blank⟩⟩

/-! ## The sprite in memory (R161, R164) -/

/-- DrawSprite's `n` bytes of memory from `I` up, top row first. -/
def State.spriteRows (s : State) (n : Nibble) : List Byte :=
  (List.range n.toNat).map fun r => s.mem.read (s.I.toNat + r)

/-- Where the sprite's bytes lie in memory, DrawSprite's block read answers them. -/
theorem State.memReadBlock_spriteRows {s : State} {n : Nibble} (hin : n = 0 ∨ s.I.toNat + n.toNat ≤ 0x1000) :
    s.memReadBlock s.I.toNat n.toNat = .ok (s.spriteRows n) := by
  obtain rfl | hin := hin
  · rfl
  · exact s.memReadBlock_ok n.toNat _ hin

/-- The two readings of the sprite's left column (R162 part 1). -/
theorem spriteLeft_readV (s : State) (x : Nibble) : spriteLeft (s.readV x) = spriteColumn s x := by
  unfold spriteLeft spriteColumn
  split <;> split <;> omega

/-- The cells DrawSprite visits are the cells `SpriteDraws` names. -/
theorem mem_spriteCells_spriteRows {s : State} {x y n : Nibble} {k : Nat} :
    k ∈ spriteCells (spriteLeft (s.readV x)) (s.readV y).toNat (s.spriteRows n) ↔ SpriteDraws s x y n k := by
  rw [mem_spriteCells, spriteLeft_readV]
  simp only [SpriteDraws, State.spriteRows, List.length_map, List.length_range, List.getElem_map, List.getElem_range,
    exists_prop]

/-- The same sprite operands and the same memory draw the same cells, whatever the rest of the machine. -/
theorem spriteDraws_congr {s u : State} {x y n : Nibble} {k : Nat} (hI : u.I = s.I) (hmem : SameMemory s u)
    (hx : u.readV x = s.readV x) (hy : u.readV y = s.readV y) : SpriteDraws u x y n k ↔ SpriteDraws s x y n k := by
  simp only [SpriteDraws, spriteColumn, hI, hx, hy, hmem _]

/-! ## DrawSprite (R161 to R163) -/

/-- The next state of a DrawSprite whose bytes lie in memory. -/
def State.retireDrawn (s : State) (x y n : Nibble) : State :=
  ((s.tickTimers.setFb (s.drawn x y (s.spriteRows n)).1).writeV vf
    (flagByte (s.drawn x y (s.spriteRows n)).2)).retire s.pcNext

theorem exec_drawSprite_inside {x y n : Nibble} {s : State} (hin : n = 0 ∨ s.I.toNat + n.toNat ≤ 0x1000) :
    exec (.drawSprite x y n) s = .next (s.retireDrawn x y n) :=
  commit_next.mpr ⟨_, State.memReadBlock_spriteRows hin, rfl⟩

/-- R164 with decisions D9 and D11 of the spec: a sprite that leaves the 4096 bytes faults at its lowest byte out of
range. -/
theorem exec_drawSprite_outside {x y n : Nibble} {s : State} (hout : ¬(n = 0 ∨ s.I.toNat + n.toNat ≤ 0x1000)) :
    exec (.drawSprite x y n) s = .fault (.boundsFault .memRead (max s.I.toNat 0x1000) s.pc) := by
  obtain ⟨hn, hlong⟩ := not_or.mp hout
  have hpos : 0 < n.toNat := Nat.pos_of_ne_zero fun h0 => hn (BitVec.eq_of_toNat_eq h0)
  exact commit_fault.mpr (s.memReadBlock_fault n.toNat _ hpos (Nat.lt_of_not_le hlong))

/-- A DrawSprite that goes on read its bytes inside memory, so it goes on to `retireDrawn`. -/
theorem exec_drawSprite_next {x y n : Nibble} {s t : State} (h : exec (.drawSprite x y n) s = .next t) :
    t = s.retireDrawn x y n := by
  by_cases hin : n = 0 ∨ s.I.toNat + n.toNat ≤ 0x1000
  · rw [exec_drawSprite_inside hin] at h
    exact (Host.Outcome.next.inj h).symm
  · rw [exec_drawSprite_outside hin] at h
    cases h

/-- The screen after DrawSprite: a sprite visits each of its cells once, so each of them is flipped. -/
theorem State.retireDrawn_cell (s : State) (x y n : Nibble) (k : Nat) :
    (SpriteDraws s x y n k → (s.retireDrawn x y n).fb.cell k = !s.fb.cell k)
      ∧ (¬SpriteDraws s x y n k → (s.retireDrawn x y n).fb.cell k = s.fb.cell k) := by
  have hcell := drawCells_cell _ s.fb false k
    (spriteCells_nodup (spriteLeft (s.readV x)) (s.spriteRows n) (s.readV y).toNat) fun _ => spriteCells_lt
  rw [← mem_spriteCells_spriteRows]
  exact ⟨fun h => hcell.trans (if_pos h), fun h => hcell.trans (if_neg h)⟩

/-- VF after DrawSprite: the loop's collision flag (R163). -/
theorem State.retireDrawn_flag (s : State) (x y n : Nibble) :
    flagIs ((s.retireDrawn x y n).readV vf) (∃ k, SpriteDraws s x y n k ∧ s.fb.cell k = true) := by
  have hhit : (s.drawn x y (s.spriteRows n)).2 = true ↔ ∃ k, SpriteDraws s x y n k ∧ s.fb.cell k = true := by
    rw [State.drawn, drawCells_hit _ _ _ (spriteCells_nodup _ _ _)]
    simp [mem_spriteCells_spriteRows]
  have hvf : (s.retireDrawn x y n).readV vf = flagByte (s.drawn x y (s.spriteRows n)).2 := by
    simp [State.retireDrawn]
  rw [hvf]
  exact flagIs_flagByte hhit

theorem sameRegsBut_retireDrawn (s : State) (x y n : Nibble) : SameRegsBut vf s (s.retireDrawn x y n) := by
  intro r hr
  simp [State.retireDrawn, hr]

theorem displayFrame_retireDrawn (s : State) (x y n : Nibble) : DisplayFrame s (s.retireDrawn x y n) :=
  displayFrame_retire s _ _

/-- Settles O43: where the bytes lie in memory the next state is `retireDrawn`, whose parts are stated above. -/
theorem drawSpriteFlipsExactlyTheSpriteCells : Obligations.DrawSpriteFlipsExactlyTheSpriteCells := fun x y n s =>
  ⟨decode_encode (.drawSprite x y n), fun hin =>
    ⟨_, exec_drawSprite_inside hin, fun k => (s.retireDrawn_cell x y n k).1,
      fun k => (s.retireDrawn_cell x y n k).2, s.retireDrawn_flag x y n, sameRegsBut_retireDrawn s x y n,
      displayFrame_retireDrawn s x y n⟩⟩

/-- Settles O44: the second draw flips the same cells back, and finds each of them opposite to what it held at
first. -/
theorem drawingTwiceRestoresTheScreen : Obligations.DrawingTwiceRestoresTheScreen := by
  intro x y n s t u w hfirst hI hmem hx hy hscreen hsecond
  obtain rfl := exec_drawSprite_next hfirst
  obtain rfl := exec_drawSprite_next hsecond
  have hsame (k : Nat) : SpriteDraws u x y n k ↔ SpriteDraws s x y n k := spriteDraws_congr hI hmem hx hy
  have hdrawn (k : Nat) (hk : SpriteDraws s x y n k) : u.fb.cell k = !s.fb.cell k :=
    (hscreen k).trans ((s.retireDrawn_cell x y n k).1 hk)
  have hkept (k : Nat) (hk : ¬SpriteDraws s x y n k) : u.fb.cell k = s.fb.cell k :=
    (hscreen k).trans ((s.retireDrawn_cell x y n k).2 hk)
  constructor
  · intro k
    obtain ⟨hflip, hkeep⟩ := u.retireDrawn_cell x y n k
    rw [hsame k] at hflip hkeep
    by_cases hk : SpriteDraws s x y n k
    · rw [hflip hk, hdrawn k hk, Bool.not_not]
    · rw [hkeep hk, hkept k hk]
  · have hcollision : (∃ k, SpriteDraws u x y n k ∧ u.fb.cell k = true)
        ↔ ∃ k, SpriteDraws s x y n k ∧ s.fb.cell k = false :=
      exists_congr fun k => by
        rw [hsame k]
        exact and_congr_right fun hk => by rw [hdrawn k hk, Bool.not_eq_true']
    rw [← hcollision]
    exact u.retireDrawn_flag x y n

/-! ## The memory blocks past the end (R164, R183 to R185) -/

/-- Settles O54: decision D9 of the spec, an instruction whose block read or block write faults is that fault; D11, the
address it names is the lowest one out of range. The timer tick before a block write does not show in the fault. -/
theorem memoryBlocksPastTheEndFault : Obligations.MemoryBlocksPastTheEndFault := by
  intro x y n s
  have hregs : (s.firstVs (x.toNat + 1)).length = x.toNat + 1 := State.firstVs_length s _ x.isLt
  refine ⟨fun hn h => ?draw, fun h => ?bcd, fun h => ⟨?dump, ?load⟩⟩
  case draw =>
    exact exec_drawSprite_outside (not_or.mpr ⟨hn, by omega⟩)
  case bcd =>
    exact commit_fault.mpr (State.memWriteBlock_fault (bcdDigits (s.readV x)) s.tickTimers _ (Nat.succ_pos 2)
      (Nat.succ_lt_succ h))
  case dump =>
    exact commit_fault.mpr (State.memWriteBlock_fault (s.firstVs (x.toNat + 1)) s.tickTimers _ (by omega)
      (by rw [hregs]; exact Nat.succ_lt_succ h))
  case load =>
    exact commit_fault.mpr (s.memReadBlock_fault (x.toNat + 1) _ x.toNat.succ_pos (Nat.succ_lt_succ h))

end Sys2Proof.Machine
end

section
/-! The family of 44_keys_timers.md: the three instructions that read one key, and the three that read or overwrite a
timer. -/

namespace Sys2Proof.Machine

/-! ## The instructions that read one key (R170 to R172) -/

/-- R170: a register of at most 15 names a key. -/
theorem State.keyIndex_of_le {s : State} {x : Nibble} (h : (s.readV x).toNat ≤ 15) :
    s.keyIndex x = .ok (s.readV x).toNat :=
  if_pos h

/-- R170: the whole register counts, so above 15 there is no key and the index is out of range. -/
theorem State.keyIndex_of_gt {s : State} {x : Nibble} (h : 15 < (s.readV x).toNat) :
    s.keyIndex x = .error (s.bounds .keyIndex (s.readV x).toNat) :=
  if_neg h.not_ge

/-- An instruction that moves `pc` by one key reads the key `V[x]` names and leaves everything else but the ticked
timers. -/
theorem commit_keyIndex_of_le {s : State} {x : Nibble} (h : (s.readV x).toNat ≤ 15) (target : Nat → Word) :
    ∃ t, commit (s.keyIndex x) (fun k => s.tickTimers.retire (target k)) = .next t ∧ ControlFrame s t
      ∧ t.pc = target (s.readV x).toNat :=
  ⟨_, commit_next.mpr ⟨_, State.keyIndex_of_le h, rfl⟩, controlFrame_retire s _, rfl⟩

/-- Decision D9 of the spec: above 15 the instruction is the fault of its key index, whatever it would have done. -/
theorem commit_keyIndex_of_gt {s : State} {x : Nibble} (h : 15 < (s.readV x).toNat) (k : Nat → State) :
    commit (s.keyIndex x) k = .fault (.boundsFault .keyIndex (s.readV x).toNat s.pc) :=
  commit_fault.mpr (State.keyIndex_of_gt h)

theorem State.pcSkip_keyHeld (s : State) (k : Nat) :
    s.pcSkip (s.keyHeld k) = if s.keys.getLsbD k = true then s.pc + 4 else s.pc + 2 := rfl

theorem State.pcSkip_not_keyHeld (s : State) (k : Nat) :
    s.pcSkip (!s.keyHeld k) = if s.keys.getLsbD k = false then s.pc + 4 else s.pc + 2 := by
  simp only [State.pcSkip, State.keyHeld, Bool.not_eq_true']

/-- Settles O45: both skips move `pc` by the same key, one when it is held and one when it is not. -/
theorem keySkipsReadOneKey : Obligations.KeySkipsReadOneKey := by
  refine fun x s => ⟨decode_encode (.skipIfPressed x), decode_encode (.skipIfNotPressed x), fun hkey => ⟨?held, ?free⟩,
    fun hkey => ⟨commit_keyIndex_of_gt hkey _, commit_keyIndex_of_gt hkey _⟩⟩
  case held =>
    rw [← State.pcSkip_keyHeld]
    exact commit_keyIndex_of_le hkey fun k => s.pcSkip (s.keyHeld k)
  case free =>
    rw [← State.pcSkip_not_keyHeld]
    exact commit_keyIndex_of_le hkey fun k => s.pcSkip (!s.keyHeld k)

/-- Settles O46: the target is `pc` itself while the key is not held. -/
theorem waitForPressHoldsThePc : Obligations.WaitForPressHoldsThePc := fun x s =>
  ⟨decode_encode (.waitForPress x),
    fun hkey => commit_keyIndex_of_le hkey fun k => if s.keyHeld k then s.pcNext else s.pc,
    fun hkey => commit_keyIndex_of_gt hkey _⟩

/-! ## The timers (R173 to R175) -/

/-- Settles O47: the result in `V[x]` is the ticked timer. -/
theorem loadDelayReadsTheTickedTimer : Obligations.LoadDelayReadsTheTickedTimer := by
  refine fun x s => ⟨decode_encode (.loadDelay x), s.retireResult x (tickDown s.delay), rfl, ?_,
    sameRegsBut_retireResult s x _, registerFrame_retireResult s x _⟩
  rw [State.readV_retireResult_self]
  exact tickDown_toNat s.delay

/-- What SetDelay and SetSound leave: everything but the timers as before, `pc` plus 2. -/
def TimerFrame (s t : State) : Prop :=
  SameRegs s t ∧ t.I = s.I ∧ t.pc = s.pc + 2 ∧ SameStorage s t ∧ Committed s t

/-- `pc + 2` and any two new timers keep everything else (R106). -/
theorem timerFrame_retire (s : State) (delay sound : Byte) :
    TimerFrame s { s.tickTimers.retire s.pcNext with delay := delay, sound := sound } := by
  obtain ⟨hregs, hI, hstorage, -, hcommitted⟩ := controlFrame_retire s s.pcNext
  exact ⟨hregs, hI, rfl, hstorage, hcommitted⟩

/-- Settles O48: each overwrites its own timer after the tick, and the other timer keeps its tick. -/
theorem setTimersOverwriteTheTick : Obligations.SetTimersOverwriteTheTick := fun x s =>
  ⟨decode_encode (.setDelay x), decode_encode (.setSound x),
    ⟨_, rfl, rfl, tickDown_toNat s.sound, timerFrame_retire s (s.readV x) (tickDown s.sound)⟩,
    ⟨_, rfl, rfl, tickDown_toNat s.delay, timerFrame_retire s (tickDown s.delay) (s.readV x)⟩⟩

end Sys2Proof.Machine
end

section
/-! The family of 45_memory_index.md: the three instructions that only write the address register, and the three that
move a block between the registers and memory. -/

namespace Sys2Proof.Machine

/-! ## Results in the address register (R180 to R182) -/

/-- A tick, a new `I` and `pc + 2` keep everything else (R104, R106). -/
theorem indexFrame_retire (s : State) (a : Word) : IndexFrame s ((s.tickTimers.setI a).retire s.pcNext) := by
  obtain ⟨hregs, -, hstorage, hticked, hcommitted⟩ := controlFrame_retire s s.pcNext
  exact ⟨hregs, rfl, hstorage, hticked, hcommitted⟩

theorem State.wideV_toNat (s : State) (x : Nibble) : (s.wideV x).toNat = (s.readV x).toNat :=
  BitVec.toNat_setWidth_of_le (by decide)

/-- Decision D17 of the spec: AddOffset's sum is the 16-bit sum, so it wraps. -/
theorem State.I_add_wideV_toNat (s : State) (x : Nibble) :
    (s.I + s.wideV x).toNat = (s.I.toNat + (s.readV x).toNat) % 65536 := by
  rw [BitVec.toNat_add, State.wideV_toNat]

/-- R182: five times a byte fits in 16 bits, so SetMemoryForFont's product is exact. -/
theorem State.wideV_mul_five_toNat (s : State) (x : Nibble) : (s.wideV x * 5).toNat = (s.readV x).toNat * 5 := by
  have hfits : (s.readV x).toNat * 5 < 2 ^ 16 := by omega
  rw [BitVec.toNat_mul, State.wideV_toNat]
  exact Nat.mod_eq_of_lt hfits

/-- Settles O49: only `I` is written, with the zero-extended immediate. -/
theorem setMemoryAddressLoadsI : Obligations.SetMemoryAddressLoadsI := fun nnn s =>
  ⟨decode_encode (.setMemoryAddress nnn), _, rfl, addrOf_toNat nnn, indexFrame_retire s _⟩

/-- Settles O50: only `I` is written, so VF is not; the sum wraps and the product is exact. -/
theorem indexArithmetic : Obligations.IndexArithmetic := fun x s =>
  ⟨decode_encode (.addOffset x), decode_encode (.setMemoryForFont x),
    ⟨_, rfl, s.I_add_wideV_toNat x, indexFrame_retire s _⟩,
    ⟨_, rfl, s.wideV_mul_five_toNat x, indexFrame_retire s _⟩⟩

/-! ## What the memory blocks share (R183 to R185) -/

/-- What SetBCD, DumpReg and LoadReg all leave: everything but the registers, `I` and memory as before, both timers
ticked, `pc` plus 2. -/
def BlockFrame (s t : State) : Prop :=
  t.pc = s.pc + 2 ∧ SameScreen s t ∧ t.stack = s.stack ∧ Ticked s t ∧ Committed s t

/-- A tick, `pc + 2`, any new register file, any new `I` and any new memory keep everything else (R104, R106). -/
theorem blockFrame_retire (s : State) (regs : Vector Byte 16) (a : Word) (m : Memory) :
    BlockFrame s { s.tickTimers.retire s.pcNext with v := regs, I := a, mem := m } := by
  obtain ⟨-, -, ⟨-, hscreen, hstack⟩, hticked, hcommitted⟩ := controlFrame_retire s s.pcNext
  exact ⟨rfl, hscreen, hstack, hticked, hcommitted⟩

/-- Where the block lies in memory, `I + X + 1` does not wrap. -/
theorem State.advancedI_toNat {s : State} {x : Nibble} (hin : s.I.toNat + x.toNat ≤ 0xFFF) :
    (s.advancedI x).toNat = s.I.toNat + x.toNat + 1 := by
  have hx : (x.setWidth 16).toNat = x.toNat := BitVec.toNat_setWidth_of_le (by decide)
  have hone : (1 : Word).toNat = 1 := rfl
  rw [State.advancedI, BitVec.toNat_add, BitVec.toNat_add, hx, hone]
  omega

/-! ## Blocks written to memory (R183, R184) -/

/-- The next state of an instruction that stores `bytes` from `I` up and leaves `a` in `I`. -/
def State.retireStored (s : State) (bytes : List Byte) (a : Word) : State :=
  ((s.tickTimers.setMem (s.mem.writeAll s.I.toNat bytes)).setI a).retire s.pcNext

theorem State.retireStored_read_block (s : State) {bytes : List Byte} (a : Word) {k : Nat} (hk : k < bytes.length) :
    (s.retireStored bytes a).mem.read (s.I.toNat + k) = bytes[k] := by
  have hread := Memory.read_writeAll bytes s.mem s.I.toNat (s.I.toNat + k)
  rw [dif_pos (by omega)] at hread
  simp only [Nat.add_sub_cancel_left] at hread
  exact hread

theorem State.retireStored_read_outside (s : State) {bytes : List Byte} (a : Word) {b : Nat}
    (hb : b < s.I.toNat ∨ s.I.toNat + bytes.length ≤ b) : (s.retireStored bytes a).mem.read b = s.mem.read b :=
  (Memory.read_writeAll bytes s.mem s.I.toNat b).trans (dif_neg (by omega))

theorem blockFrame_retireStored (s : State) (bytes : List Byte) (a : Word) : BlockFrame s (s.retireStored bytes a) :=
  blockFrame_retire s s.v a _

theorem exec_setBCD_inside {x : Nibble} {s : State} (hin : s.I.toNat + 2 ≤ 0xFFF) :
    exec (.setBCD x) s = .next (s.retireStored (bcdDigits (s.readV x)) s.I) :=
  commit_next.mpr ⟨_, State.memWriteBlock_ok (bcdDigits (s.readV x)) s.tickTimers _ (Nat.succ_le_succ hin), rfl⟩

/-- R183: each decimal digit of a byte fits in the byte that `bcdDigits` makes of it, so it is stored exactly. -/
theorem State.retireStored_bcdDigits (s : State) (b : Byte) (a : Word) :
    ((s.retireStored (bcdDigits b) a).mem.read s.I.toNat).toNat = b.toNat / 100
      ∧ ((s.retireStored (bcdDigits b) a).mem.read (s.I.toNat + 1)).toNat = b.toNat / 10 % 10
      ∧ ((s.retireStored (bcdDigits b) a).mem.read (s.I.toNat + 2)).toNat = b.toNat % 10 := by
  have hdigit {k d : Nat} (hk : k < 3) (hd : d < 256) (hk_eq : (bcdDigits b)[k] = BitVec.ofNat 8 d) :
      ((s.retireStored (bcdDigits b) a).mem.read (s.I.toNat + k)).toNat = d := by
    rw [s.retireStored_read_block a hk, hk_eq]
    exact Nat.mod_eq_of_lt hd
  exact ⟨hdigit (k := 0) (by decide) (by omega) rfl, hdigit (by decide) (by omega) rfl,
    hdigit (by decide) (by omega) rfl⟩

/-- Settles O51: the next state is `retireStored` with the three digits and `I` as before. -/
theorem setBCDStoresThreeDigits : Obligations.SetBCDStoresThreeDigits := by
  refine fun x s => ⟨decode_encode (.setBCD x), fun hin => ?_⟩
  obtain ⟨hhundreds, htens, hunits⟩ := s.retireStored_bcdDigits (s.readV x) s.I
  exact ⟨_, exec_setBCD_inside hin, hhundreds, htens, hunits, fun _ hb => s.retireStored_read_outside s.I hb,
    fun _ => rfl, rfl, blockFrame_retireStored s _ _⟩

theorem exec_dumpReg_inside {x : Nibble} {s : State} (hin : s.I.toNat + x.toNat ≤ 0xFFF) :
    exec (.dumpReg x) s = .next (s.retireStored (s.firstVs (x.toNat + 1)) (s.advancedI x)) := by
  have hwrite := State.memWriteBlock_ok (s.firstVs (x.toNat + 1)) s.tickTimers s.I.toNat
    (by rw [State.firstVs_length s _ x.isLt]; exact Nat.succ_le_succ hin)
  exact commit_next.mpr ⟨_, hwrite, rfl⟩

/-- Settles O52: the next state is `retireStored` with V0 to VX and the advanced `I`. -/
theorem dumpRegStoresTheRegisters : Obligations.DumpRegStoresTheRegisters := by
  refine fun x s => ⟨decode_encode (.dumpReg x), fun hin => ?_⟩
  have hlen : (s.firstVs (x.toNat + 1)).length = x.toNat + 1 := State.firstVs_length s _ x.isLt
  exact ⟨_, exec_dumpReg_inside hin, fun _ => execDumpReg_mem_read (exec_dumpReg_inside hin),
    fun _ hb => s.retireStored_read_outside _ (by omega), State.advancedI_toNat hin,
    fun _ => rfl, blockFrame_retireStored s _ _⟩

/-! ## A block read into the registers (R185) -/

/-- A block write to the registers is a new register file and nothing else. -/
theorem State.writeVs_eq_with_v (bytes : List Byte) : ∀ (s : State) (i : Nat),
    s.writeVs i bytes = { s with v := (s.writeVs i bytes).v } := by
  induction bytes with
  | nil => intro s i; rfl
  | cons b rest ih => intro s i; exact ih _ (i + 1)

/-- The bytes LoadReg reads: from `I` up to `I + X`. -/
def State.loadBytes (s : State) (x : Nibble) : List Byte :=
  (List.range (x.toNat + 1)).map fun k => s.mem.read (s.I.toNat + k)

/-- The next state of a LoadReg whose block lies in memory. -/
def State.retireLoaded (s : State) (x : Nibble) : State :=
  ((s.tickTimers.writeVs 0 (s.loadBytes x)).setI (s.advancedI x)).retire s.pcNext

theorem exec_loadReg_inside {x : Nibble} {s : State} (hin : s.I.toNat + x.toNat ≤ 0xFFF) :
    exec (.loadReg x) s = .next (s.retireLoaded x) :=
  commit_next.mpr ⟨_, s.memReadBlock_ok (x.toNat + 1) _ (Nat.succ_le_succ hin), rfl⟩

/-- A LoadReg that goes on read its block inside memory, so it goes on to `retireLoaded`. -/
theorem exec_loadReg_next {x : Nibble} {s t : State} (h : exec (.loadReg x) s = .next t) : t = s.retireLoaded x := by
  by_cases hin : s.I.toNat + x.toNat ≤ 0xFFF
  · rw [exec_loadReg_inside hin] at h
    exact (Host.Outcome.next.inj h).symm
  · obtain ⟨-, -, hfault⟩ := memoryBlocksPastTheEndFault x x x s
    rw [(hfault (Nat.lt_of_not_le hin)).2] at h
    cases h

/-- The registers after LoadReg: the block's bytes up to VX, the old values above it. -/
theorem State.readV_retireLoaded (s : State) (x r : Nibble) :
    (s.retireLoaded x).readV r = if r.toNat ≤ x.toNat then s.mem.read (s.I.toNat + r.toNat) else s.readV r := by
  have hlen : (s.loadBytes x).length = x.toNat + 1 := by rw [State.loadBytes, List.length_map, List.length_range]
  have hread := State.readV_writeVs (s.loadBytes x) s.tickTimers 0 r (by omega)
  refine hread.trans ?_
  by_cases hr : r.toNat ≤ x.toNat
  · rw [dif_pos (by omega), if_pos hr]
    simp only [State.loadBytes, List.getElem_map, List.getElem_range, Nat.sub_zero]
  · rw [dif_neg (by omega), if_neg hr, State.readV_tickTimers]

theorem sameMemory_retireLoaded (s : State) (x : Nibble) : SameMemory s (s.retireLoaded x) := by
  intro a
  simp [State.retireLoaded]

theorem blockFrame_retireLoaded (s : State) (x : Nibble) : BlockFrame s (s.retireLoaded x) := by
  rw [State.retireLoaded, State.writeVs_eq_with_v]
  exact blockFrame_retire s _ _ _

/-- Settles O53: the next state is `retireLoaded`, whose registers `readV_retireLoaded` gives. -/
theorem loadRegLoadsTheRegisters : Obligations.LoadRegLoadsTheRegisters := by
  refine fun x s => ⟨decode_encode (.loadReg x), fun hin => ?_⟩
  obtain ⟨hpc, hscreen, hstack, hticked, hcommitted⟩ := blockFrame_retireLoaded s x
  exact ⟨_, exec_loadReg_inside hin, fun r hr => (s.readV_retireLoaded x r).trans (if_pos hr),
    fun r hr => (s.readV_retireLoaded x r).trans (if_neg hr.not_ge), State.advancedI_toNat hin, hpc,
    ⟨sameMemory_retireLoaded s x, hscreen, hstack⟩, hticked, hcommitted⟩

/-- Settles O55: LoadReg reads at `I + r` the byte that DumpReg stored there from `V[r]`. -/
theorem loadRegUndoesDumpReg : Obligations.LoadRegUndoesDumpReg := by
  intro x s t u w hdump hmem hI hload r hr
  obtain rfl := exec_loadReg_next hload
  calc (u.retireLoaded x).readV r
      _ = u.mem.read (u.I.toNat + r.toNat) := (u.readV_retireLoaded x r).trans (if_pos hr)
      _ = t.mem.read (s.I.toNat + r.toNat) := by rw [hI, hmem]
      _ = s.readV r := execDumpReg_mem_read hdump hr

end Sys2Proof.Machine
end

section
/-! The family of 60_exceptions.md: exactly when an instruction and a step fault and what they report, and from it the
fixed point after a fault, the listed sub-causes, the recorded values and the fault ports. -/

namespace Sys2Proof.Machine

/-! ## Exactly when a shared operation faults (R202) -/

theorem State.memReadBlock_error_iff {s : State} {base n : Nat} {f : Fault} :
    s.memReadBlock base n = .error f ↔
      f = s.bounds .memRead (max base 0x1000) ∧ 0 < n ∧ Config.memorySize < base + n := by
  refine ⟨State.memReadBlock_error, ?_⟩
  rintro ⟨rfl, hpos, hlong⟩
  exact s.memReadBlock_fault n base hpos hlong

theorem State.memWriteBlock_error_iff {s : State} {base : Nat} {bytes : List Byte} {f : Fault} :
    s.memWriteBlock base bytes = .error f ↔
      f = s.bounds .memWrite (max base 0x1000) ∧ bytes ≠ [] ∧ Config.memorySize < base + bytes.length := by
  refine ⟨State.memWriteBlock_error, ?_⟩
  rintro ⟨rfl, hne, hlong⟩
  exact s.memWriteBlock_fault bytes base (List.length_pos_iff.mpr hne) hlong

theorem State.push_error_iff {s : State} {r : Word} {f : Fault} :
    s.push r = .error f ↔
      f = s.bounds .stackOverflow r.toNat ∧ ∃ d, s.cfg.stackDepth = some d ∧ d ≤ s.stack.length := by
  refine ⟨State.push_error, ?_⟩
  rintro ⟨rfl, d, hd, hfull⟩
  exact s.push_of_full r hd hfull

theorem State.keyIndex_error_iff {s : State} {x : Nibble} {f : Fault} :
    s.keyIndex x = .error f ↔ f = s.bounds .keyIndex (s.readV x).toNat ∧ 15 < (s.readV x).toNat := by
  refine ⟨State.keyIndex_error, ?_⟩
  rintro ⟨rfl, hkey⟩
  exact State.keyIndex_of_gt hkey

/-! ## Exactly when an instruction faults (R220) -/

/-- R220 with the values of R202: instruction `i` executed in `s` raises the fault `f`. No input and nothing of the
model's record of faults occurs in it. -/
def OwnFault (i : Instr) (s : State) (f : Fault) : Prop :=
  match i with
  | .call _ => f = s.bounds .stackOverflow s.pc.toNat ∧ ∃ d, s.cfg.stackDepth = some d ∧ d ≤ s.stack.length
  | .drawSprite _ _ n =>
    f = s.bounds .memRead (max s.I.toNat 0x1000) ∧ 0 < n.toNat ∧ Config.memorySize < s.I.toNat + n.toNat
  | .loadReg x => f = s.bounds .memRead (max s.I.toNat 0x1000) ∧ Config.memorySize < s.I.toNat + (x.toNat + 1)
  | .setBCD _ => f = s.bounds .memWrite (max s.I.toNat 0x1000) ∧ Config.memorySize < s.I.toNat + 3
  | .dumpReg x => f = s.bounds .memWrite (max s.I.toNat 0x1000) ∧ Config.memorySize < s.I.toNat + (x.toNat + 1)
  | .skipIfPressed x | .skipIfNotPressed x | .waitForPress x =>
    f = s.bounds .keyIndex (s.readV x).toNat ∧ 15 < (s.readV x).toNat
  | _ => False

theorem execRet_not_fault (s : State) (f : Fault) : execRet s ≠ .fault f := by
  unfold execRet
  split
  · nofun
  · nofun

/-- The cases named are those whose meaning can end in two ways; every other one answers one next state outright. -/
theorem exec_fault_iff {i : Instr} {s : State} {f : Fault} : exec i s = .fault f ↔ OwnFault i s f := by
  cases i with
  | ret => exact iff_false_intro (execRet_not_fault s f)
  | call nnn => exact commit_fault.trans State.push_error_iff
  | drawSprite x y n => exact commit_fault.trans State.memReadBlock_error_iff
  | loadReg x =>
    exact commit_fault.trans (State.memReadBlock_error_iff.trans (and_congr_right' (and_iff_right x.toNat.succ_pos)))
  | setBCD x =>
    exact commit_fault.trans (State.memWriteBlock_error_iff.trans
      (and_congr_right' (and_iff_right (List.cons_ne_nil _ _))))
  | dumpReg x =>
    have hlen : (s.firstVs (x.toNat + 1)).length = x.toNat + 1 := State.firstVs_length s _ x.isLt
    have hne : s.firstVs (x.toNat + 1) ≠ [] := List.ne_nil_of_length_eq_add_one hlen
    refine commit_fault.trans (State.memWriteBlock_error_iff.trans (and_congr_right' ?_))
    rw [and_iff_right hne, hlen]
  | skipIfPressed | skipIfNotPressed | waitForPress => exact commit_fault.trans State.keyIndex_error_iff
  | _ => exact iff_false_intro nofun

/-! ## The recorded value of a BoundsFault (R202) -/

/-- R202: in `s` a BoundsFault of sub-cause `c` can record `v`. -/
def State.Records (s : State) (c : BoundsCause) (v : Nat) : Prop :=
  match c with
  | .fetch => 0xFFE < s.pc.toNat ∧ v = max s.pc.toNat 0x1000
  | .memRead => v = max s.I.toNat 0x1000
  | .memWrite => v = max s.I.toNat 0x1000
  | .keyIndex => 15 < v ∧ ∃ x, v = (s.readV x).toNat
  | .stackOverflow => v = s.pc.toNat ∧ ∃ d, s.cfg.stackDepth = some d ∧ d ≤ s.stack.length

/-- A recorded value is a 16-bit address, 0x1000 or a byte, so it fits the port of R204. -/
theorem State.Records.lt {s : State} {c : BoundsCause} {v : Nat} (h : s.Records c v) : v < 65536 := by
  have hword (a : Word) : max a.toNat 0x1000 < 65536 := max_lt a.isLt (by decide)
  cases c with
  | fetch => exact h.2 ▸ hword s.pc
  | memRead | memWrite => exact h ▸ hword s.I
  | keyIndex =>
    obtain ⟨-, x, rfl⟩ := h
    exact (s.readV x).isLt.trans (by decide)
  | stackOverflow => exact h.1 ▸ s.pc.isLt

/-- The report of an instruction's fault: the sub-cause of its row, a value of that sub-cause, its own address. -/
theorem OwnFault.report {i : Instr} {s : State} {f : Fault} (h : OwnFault i s f) :
    ∃ c v, ownCause i = some c ∧ f = s.bounds c v ∧ s.Records c v := by
  cases i with
  | call nnn =>
    obtain ⟨rfl, hfull⟩ := h
    exact ⟨_, _, rfl, rfl, rfl, hfull⟩
  | drawSprite | loadReg | setBCD | dumpReg => exact ⟨_, _, rfl, h.1, rfl⟩
  | skipIfPressed x | skipIfNotPressed x | waitForPress x =>
    obtain ⟨rfl, hkey⟩ := h
    exact ⟨_, _, rfl, rfl, hkey, x, rfl⟩
  | _ => exact h.elim

/-- Settles O12: the report of an instruction's fault, without its value. -/
theorem instructionFaultsAreTheListed : Obligations.InstructionFaultsAreTheListed := by
  intro i s f h
  obtain ⟨c, v, hcause, hf, -⟩ := (exec_fault_iff.mp h).report
  exact ⟨c, v, hcause, hf⟩

/-- A BoundsFault of a step names the step's `pc` and a value of its sub-cause: it comes from the fetch or from the
instruction. -/
theorem step_boundsFault {s : State} {c : BoundsCause} {v : Nat} {p : Word}
    (h : step s = .fault (.boundsFault c v p)) : p = s.pc ∧ s.Records c v := by
  obtain hfetch | ⟨w, -, ⟨i, -, hexec⟩ | ⟨-, -, hdecode⟩⟩ := step_fault h
  · obtain ⟨heq, hpc⟩ := State.fetch_error hfetch
    cases heq
    exact ⟨rfl, hpc, rfl⟩
  · obtain ⟨c', v', -, heq, hrecords⟩ := (exec_fault_iff.mp hexec).report
    cases heq
    exact ⟨rfl, hrecords⟩
  · cases hdecode

/-- Settles O13: `State.Records` is the table of the statement, and what it allows fits 16 bits. -/
theorem boundsFaultRecordsItsValue : Obligations.BoundsFaultRecordsItsValue := by
  intro s c v p h
  obtain ⟨hp, hrecords⟩ := step_boundsFault h
  exact ⟨hp, hrecords.lt, hrecords⟩

/-! ## After a fault (R207, R208) -/

theorem step_of_fetch_ok {s : State} {w : Word} (h : s.fetch = .ok w) : step s = endStep (runWord w s) := by
  rw [step, h]

theorem runWord_of_some {w : Word} {i : Instr} (hd : decode w = some i) (s : State) : runWord w s = exec i s := by
  rw [runWord, hd]

theorem runWord_of_none {w : Word} (hd : decode w = none) (s : State) : runWord w s = s.raiseDecode w := by
  rw [runWord, hd]

/-- `s` with other inputs and another record of faults: all that a tick which faults, and the host before the next
tick, can change. -/
def State.withRecord (s : State) (keys : BitVec 16) (rnd : Byte) (ix : Nat) (out : Option Fault) (seen : Bool) :
    State :=
  { s with keys := keys, rnd := rnd, inputIx := ix, faultOut := out, faultSeen := seen }

section
variable {s : State} {f : Fault} (keys : BitVec 16) (rnd : Byte) (ix : Nat) (out : Option Fault) (seen : Bool)

theorem State.fetch_withRecord : (s.withRecord keys rnd ix out seen).fetch = s.fetch := rfl

/-- When an instruction faults, and with what, does not depend on the inputs or the record: `OwnFault` names neither. -/
theorem exec_withRecord_fault {i : Instr} (h : exec i s = .fault f) :
    exec i (s.withRecord keys rnd ix out seen) = .fault f := by
  have hown : OwnFault i s f := exec_fault_iff.mp h
  exact exec_fault_iff.mpr hown

/-- A step that faults raises the same fault with other inputs and another record: the fetch, the instruction and the
policy on an unrecognized word all answer as before. -/
theorem step_withRecord_fault (h : step s = .fault f) : step (s.withRecord keys rnd ix out seen) = .fault f := by
  obtain hfetch | ⟨w, hfetch, hrun⟩ := step_fault h
  · exact step_of_fetch_error ((State.fetch_withRecord ..).trans hfetch)
  · rw [step_of_fetch_ok ((State.fetch_withRecord ..).trans hfetch), endStep_fault]
    obtain ⟨i, hd, hexec⟩ | ⟨hd, hhalt, rfl⟩ := hrun
    · rw [runWord_of_some hd]
      exact exec_withRecord_fault keys rnd ix out seen hexec
    · rw [runWord_of_none hd]
      exact State.raiseDecode_halt w hhalt

end

theorem State.tick_faultOut_of_fault {s : State} {f : Fault} (h : step s = .fault f) : s.tick.faultOut = some f := by
  rw [State.tick_fault h, State.nextInputs_faultOut]

theorem State.tick_faultSeen_of_fault {s : State} {f : Fault} (h : step s = .fault f) : s.tick.faultSeen = true := by
  rw [State.tick_fault h, State.nextInputs_faultSeen]

/-- The tick of a step that faults, with whatever inputs come next. -/
theorem State.tick_present_of_fault {s : State} {f : Fault} (h : step s = .fault f) (keys : BitVec 16) (rnd : Byte) :
    s.tick.present keys rnd = s.withRecord keys rnd (s.inputIx + 1) (some f) true := by
  rw [State.tick_fault h]
  rfl

theorem sameMachine_tick_of_fault {s : State} {f : Fault} (h : step s = .fault f) : SameMachine s s.tick := by
  rw [State.tick_fault h]
  exact ⟨fun _ => rfl, rfl, rfl, rfl, rfl, rfl, fun _ => rfl, fun _ => rfl, rfl⟩

/-- Settles O11: the tick after a fault changes only the inputs and the record of faults. -/
theorem faultedStateIsAFixedPoint : Obligations.FaultedStateIsAFixedPoint := by
  refine fun s f h => ⟨fun keys rnd => ?_, sameMachine_tick_of_fault h, State.tick_faultOut_of_fault h,
    State.tick_faultSeen_of_fault h⟩
  rw [State.tick_present_of_fault h]
  exact step_withRecord_fault keys rnd _ _ _ h

/-! ## The fault ports (R204) -/

/-- A tick over an unrecognized word reports it under either policy (R208). -/
theorem State.tick_faultOut_unrecognized {s : State} (hpc : s.pc.toNat ≤ 0xFFE) (hd : decode s.fetchedWord = none) :
    s.tick.faultOut = some (.decodeFault s.fetchedWord s.pc) := by
  have hstep := step_of_unrecognized hpc hd
  cases hp : s.cfg.decodeFaultPolicy with
  | skip =>
    rw [State.raiseDecode_skip _ hp] at hstep
    rw [State.tick_next hstep, State.nextInputs_faultOut]
  | halt =>
    rw [State.raiseDecode_halt _ hp] at hstep
    exact State.tick_faultOut_of_fault hstep

/-- Every instruction that goes on ends in `retire`, which clears the step's `fault` output (R108). The cases named are
those whose meaning can end in two ways. -/
theorem exec_faultOut {i : Instr} {s t : State} (h : exec i s = .next t) : t.faultOut = none := by
  cases i with
  | ret =>
    obtain ⟨-, rfl⟩ | ⟨r, rest, -, rfl⟩ := execRet_next h
    · exact State.retire_faultOut _ _
    · exact State.retire_faultOut _ _
  | call | drawSprite | skipIfPressed | skipIfNotPressed | waitForPress | setBCD | dumpReg | loadReg =>
    obtain ⟨a, -, rfl⟩ := commit_next.mp h
    exact State.retire_faultOut _ _
  | _ =>
    cases h
    exact State.retire_faultOut _ _

theorem State.tick_faultOut_completed {s t : State} {i : Instr} (hpc : s.pc.toNat ≤ 0xFFE)
    (hd : decode s.fetchedWord = some i) (h : exec i s = .next t) : s.tick.faultOut = none := by
  have hstep : step s = .next t.nextInputs := (step_of_decode hpc hd).trans (endStep_next.mpr ⟨t, h, rfl⟩)
  rw [State.tick_next hstep, State.nextInputs_faultOut, exec_faultOut h]

/-- Settles O58: what each kind of tick leaves in `faultOut`, read through the ports; a BoundsFault's value fits the
16-bit port, so it is read exactly. -/
theorem faultPortsCarryTheStepsFault : Obligations.FaultPortsCarryTheStepsFault := by
  refine fun s => ⟨fun hpc hd => ?unrecognized, fun c v p h => ?bounds, fun i t hpc hd h => ?completed⟩
  case unrecognized =>
    rw [State.tick_faultOut_unrecognized hpc hd]
    exact ⟨rfl, rfl, rfl, rfl⟩
  case bounds =>
    obtain ⟨rfl, hrecords⟩ := step_boundsFault h
    rw [State.tick_faultOut_of_fault h]
    refine ⟨rfl, Nat.mod_eq_of_lt hrecords.lt, rfl, ?_⟩
    cases c <;> rfl
  case completed =>
    rw [State.tick_faultOut_completed hpc hd h]
    exact ⟨rfl, rfl⟩

end Sys2Proof.Machine
end

section
/-! The family of 70_reset_and_hazards.md: what the reset port accepts and loads, the invariant after it, and the parked
form of a program's end. -/

namespace Sys2Proof.Machine

/-! ## The memory that reset loads (R240, R241) -/

/-- The font and a program that fits lie within the 4096 bytes. -/
theorem ResetArgs.memory_wf {a : ResetArgs} (hprogram : programWf a.program) (hfont : fontWf a.font) :
    a.memory.wf := by
  have hfontFits : 0 + a.font.length ≤ Config.memorySize := by rw [hfont]; decide
  have hprogramFits : Config.programBase + a.program.length ≤ Config.memorySize := Nat.add_le_add_left hprogram _
  exact Memory.writeAll_wf a.program (Memory.writeAll_wf a.font Memory.reset_wf hfontFits) hprogramFits

/-- The font ends below the program base, so no program covers it. -/
theorem ResetArgs.memory_read_font {a : ResetArgs} (hfont : fontWf a.font) {k : Nat} (hk : k < a.font.length) :
    a.memory.read k = a.font[k] := by
  have hlen : a.font.length = 80 := hfont
  rw [a.memory_read, dif_neg (by omega), dif_pos hk]

theorem ResetArgs.memory_read_program (a : ResetArgs) {k : Nat} (hk : k < a.program.length) :
    a.memory.read (0x200 + k) = a.program[k] := by
  rw [a.memory_read, dif_pos (by omega)]
  simp

/-- Outside the font and the program the loaded memory is 0 (decision D13 of the spec). -/
theorem ResetArgs.memory_read_outside {a : ResetArgs} (hfont : fontWf a.font) {b : Nat} (hb : 80 ≤ b)
    (hout : b < 0x200 ∨ 0x200 + a.program.length ≤ b) : a.memory.read b = 0 := by
  have hlen : a.font.length = 80 := hfont
  rw [a.memory_read, dif_neg (by omega), dif_neg (by omega), initialByte_above_font hb]

/-- Loading the default font and no program stores only what unlisted bytes read as already, so nothing is listed. -/
theorem ResetArgs.memory_ofProgram_nil : (ResetArgs.ofProgram []).memory = State.reset.mem := by
  refine Memory.ext_of_read (ResetArgs.memory_wf (by decide) (by decide)) Memory.reset_wf fun b => ?_
  rw [ResetArgs.memory_read, dif_neg (fun ⟨hge, hlt⟩ => absurd hlt (Nat.not_lt.mpr hge)), State.reset_mem_read]
  split
  · next h => exact (List.getD_eq_getElem _ _ h).symm
  · rfl

theorem ResetArgs.state_ofProgram_nil : (ResetArgs.ofProgram []).state = State.reset := by
  rw [ResetArgs.state, ResetArgs.memory_ofProgram_nil]
  rfl

/-! ## What the reset port refuses (R241, R7, decision D22 of the spec) -/

theorem State.hostReset_of_long_program (s : State) {a : ResetArgs} (h : ¬programWf a.program) :
    s.hostReset a = .refused (.programTooLong a.program.length) :=
  if_neg h

theorem State.hostReset_of_illegal_parameter (s : State) {a : ResetArgs} (hprogram : programWf a.program)
    (h : ¬(fontWf a.font ∧ a.cfg.wf)) : s.hostReset a = .refused .illegalParameter := by
  rw [State.hostReset, if_pos hprogram, if_neg h]

/-! ## Reset with any arguments -/

/-- Settles O17: the loaded memory is canonical and the accepted depth legal; the rest is as in `State.reset`. -/
theorem hostResetMeetsTheInvariant : Obligations.HostResetMeetsTheInvariant := by
  intro s t a h
  obtain ⟨hprogram, hfont, hcfg, rfl⟩ := State.hostReset_next.mp h
  obtain ⟨-, -, -, hreturn, hpc⟩ := resetMeetsTheInvariant
  exact ⟨ResetArgs.memory_wf hprogram hfont, hcfg, fun d _ => Nat.zero_le d, hreturn, hpc⟩

/-- Settles O26: legal arguments load font and program into the reset state, the two refusals are the two failed
checks, and the empty program loads nothing. -/
theorem resetLoadsTheProgram : Obligations.ResetLoadsTheProgram := by
  refine fun s a => ⟨fun hprogram hfont hdepth => ?loads, fun hlong => ?tooLong, fun hprogram hillegal => ?illegal,
    ?empty⟩
  case loads =>
    exact ⟨_, State.hostReset_next.mpr ⟨hprogram, hfont, hdepth, rfl⟩, rfl, rfl, State.reset_readV, rfl, rfl, rfl,
      FrameBuffer.cell_blank, fun _ hk => ResetArgs.memory_read_font hfont hk, fun _ hk => a.memory_read_program hk,
      fun _ => ResetArgs.memory_read_outside hfont, rfl, rfl, rfl⟩
  case tooLong => exact s.hostReset_of_long_program (Nat.not_le.mpr hlong)
  case illegal =>
    refine s.hostReset_of_illegal_parameter hprogram fun ⟨hfont, hdepth⟩ => ?_
    exact hillegal.elim (absurd hfont) hdepth
  case empty =>
    refine State.hostReset_next.mpr ⟨by decide, by decide, by decide, ?_⟩
    rw [ResetArgs.state_ofProgram_nil]
    rfl

/-! ## Parked programs (R246, decision D19 of the spec) -/

/-- A `pc` that can be fetched from fits in the address field of Jump. -/
theorem addrOf_setWidth {a : Word} (h : a.toNat ≤ 0xFFE) : addrOf (a.setWidth 12) = a := by
  apply BitVec.eq_of_toNat_eq
  rw [addrOf_toNat, BitVec.toNat_setWidth]
  omega

/-- The two bytes of the parked form are the word of `Jump pc`. -/
theorem State.Parked.fetchedWord_eq {s : State} (h : s.Parked) : s.fetchedWord = encode (.jump (s.pc.setWidth 12)) := by
  obtain ⟨hpc, hhi, hlo⟩ := h
  apply BitVec.eq_of_toNat_eq
  have hopcode : (1 : Nibble).toNat = 1 := rfl
  simp only [State.fetchedWord, hhi, hlo, encode, wordA, hopcode, BitVec.toNat_ofNat, BitVec.toNat_setWidth]
  omega

/-- The step of a parked program only ticks the timers and presents the next inputs. -/
theorem State.Parked.step_eq {s : State} (h : s.Parked) : step s = .next (s.tickTimers.retire s.pc).nextInputs := by
  have hpc : s.pc.toNat ≤ 0xFFE := h.1
  have hdecode : decode s.fetchedWord = some (.jump (s.pc.setWidth 12)) := by rw [h.fetchedWord_eq, decode_encode]
  have hexec : exec (.jump (s.pc.setWidth 12)) s = .next (s.tickTimers.retire s.pc) := by
    rw [exec, execJump, addrOf_setWidth hpc]
  exact (step_of_decode hpc hdecode).trans (endStep_next.mpr ⟨_, hexec, rfl⟩)

/-- Settles O57: the step puts the same `pc` back and keeps memory, so the next state is parked too. -/
theorem parkedProgramStaysParked : Obligations.ParkedProgramStaysParked := by
  intro s h
  obtain ⟨hregs, hI, hstorage, hticked, hout, hseen, hcfg, -⟩ := controlFrame_retire s s.pc
  exact ⟨_, h.step_eq, h, rfl, hregs, hI, hstorage, hticked, hout, hseen, hcfg⟩

end Sys2Proof.Machine
end
